-- ==== Sys2Proof/Word.lean ====
section
/-! DEFINITION. The word types of the OOK pulse classifier (spec 00_scope.md R7, R10). A time value is a
plain `Nat`, in sample ticks ("integer ≥0", R11; log entry 7). -/

namespace Sys2Proof

/-- A byte is 8 bits (R10). -/
abbrev Byte := BitVec 8

/-- The 64-bit word form `W(c)` of a Command; byte 0 is bits 63 to 56 (R10). -/
abbrev CmdWord := BitVec 64

end Sys2Proof
end

