-- ==== Sys2Proof/Config.lean ====
section
/-! DEFINITION. What an implementation or the environment fixes: the eight parameter registers' record (spec
00_scope.md R6, 10_state.md R30) and the values the spec leaves open. -/

namespace Sys2Proof

/-- The configuration record of the decode path: P0 to P7 of 10_state.md R30. The first seven are times in ticks,
`group` (P7) is an 8-bit count of symbols. -/
structure Params where
  tLong   : Nat
  tGap    : Nat
  tBitMax : Nat
  oneLo   : Nat
  oneHi   : Nat
  zeroLo  : Nat
  zeroHi  : Nat
  group   : Nat
  deriving DecidableEq, Repr

/-- FREE VALUE (log entry 5). The number of bytes, 0 to 8, that the sink takes of a block when no answer of the
sink was given beforehand: "`k` is chosen by the environment, not by the hardware; a model treats it as a free
input of the step" (20_memory.md R57, 93_implementation_defined.md U5). The argument counts such draws. -/
opaque Config.freeSinkAnswer : Nat → Fin 9

/-- OPEN VALUE (log entry 25). The length of one tick in seconds, `TICK_SECONDS` of 92_eei_decisions.md D27:
"`OPEN`: parameter `TICK_SECONDS`, used by no rule". No definition of this model reads it. -/
opaque Config.tickSeconds : Rat

end Sys2Proof
end

