-- ==== Sys2Proof/Machine/Defaults.lean ====
section
/-! DEFINITION. The default values of the parameter registers and of the time width (spec 00_scope.md R6, R7, 10_state.md R30, R35). -/

namespace Sys2Proof.Machine

/-- 100, 90, 110, 10, 29, 40, 79, 4 (10_state.md R35). -/
def defaultParams : Params where
  tLong := 100
  tGap := 90
  tBitMax := 110
  oneLo := 10
  oneHi := 29
  zeroLo := 40
  zeroHi := 79
  group := 4

/-- `TW` of a finite implementation that names no other: "parameter `TW` (default 64)" (00_scope.md R7). -/
def defaultTimeWidth : Nat := 64

end Sys2Proof.Machine
end

