-- ==== Sys2Proof/Syntax.lean ====
section
/-! DEFINITION. The operations and wire words of spec/opcode_table.json, one constructor a row, and what the
environment can present to the hardware: the port signals that select an operation (spec 30_encoding.md R89 to
R93), the reset event, a parameter write and one clock cycle of the port form. -/

namespace Sys2Proof

/-- `send_parts ∈ {Preamble, Data, All}` (00_scope.md R14). -/
inductive Parts where
  | preamble
  | data
  | all
  deriving DecidableEq, Repr

/-- The operands of `ENC`, with the widths of 30_encoding.md R85. -/
structure SendInstr where
  parts    : Parts
  skip     : BitVec 8
  rep      : BitVec 8
  preamble : BitVec 16
  data     : BitVec 64
  deriving DecidableEq, Repr

/-- The instruction set: the eleven rows of spec/opcode_table.json. -/
inductive Instr where
  /-- CMD.PREAMBLE (43_command_encoder.md R172): the wire word with tag `0b110`. -/
  | cmdPreamble (skip5 : BitVec 5) (rep : BitVec 8) (pre13 : BitVec 13) (data35 : BitVec 35)
  /-- CMD.DATA (R173): the wire word with tag `0b101`. -/
  | cmdData (skip5 : BitVec 5) (rep : BitVec 8) (pre13 : BitVec 13) (data35 : BitVec 35)
  /-- CMD.ALL (R174): the wire word with tag `0b111`. -/
  | cmdAll (skip5 : BitVec 5) (rep : BitVec 8) (pre13 : BitVec 13) (data35 : BitVec 35)
  /-- CMD.END (R175): the sentinel, 64 zero bits. -/
  | cmdEnd
  /-- SMP (40_edge_detector.md R100): one sample of level `v`, `true` high. -/
  | smp (v : Bool)
  /-- SMPB (R105): the eight samples of a byte, bit 7 first. -/
  | smpb (b : Byte)
  /-- EOS (R106): end of stream. -/
  | eos
  /-- SRCERR (R107): the byte source failed. -/
  | srcerr
  /-- ENC (43_command_encoder.md R165): compute a Command. -/
  | enc (i : SendInstr)
  /-- SEND (44_transmit_endpoint.md R185): write the word on `cmd_in` to the sink. -/
  | send (c : CmdWord)
  /-- CLOSE (R188): write the sentinel and close the endpoint. -/
  | close
  deriving DecidableEq, Repr

/-- The encoder's input port (30_encoding.md R89): `parts[1:0]`, `skip[7:0]`, `repeat[7:0]`, `preamble[15:0]`,
`data[63:0]`. -/
structure EncPort where
  parts    : BitVec 2
  skip     : BitVec 8
  rep      : BitVec 8
  preamble : BitVec 16
  data     : BitVec 64
  deriving DecidableEq, Repr

/-- One presentation of signals that may select an operation: the encodings of the operations (30_encoding.md
section 5). `wire` is a 64-bit word taken by itself, as it stands on SINK (R76, R81). -/
inductive Presented where
  /-- Agent DEC's inputs `dec_op[2:0]`, `smp_bit`, `smp_byte[7:0]` (R90). -/
  | dec (op : BitVec 3) (bit : BitVec 1) (byte : Byte)
  /-- The Transmit Endpoint's inputs `tx_op[1:0]`, `cmd_in[63:0]` (R92). -/
  | tx (op : BitVec 2) (cmd : CmdWord)
  /-- The encoder's inputs; `ENC` has no selecting pattern (R93). -/
  | enc (p : EncPort)
  /-- A wire word in its word form `W` (R76). -/
  | wire (w : CmdWord)
  deriving DecidableEq, Repr

/-- Why a presentation is no operation. -/
inductive Reject where
  /-- `dec_op = 0b000`: an idle cycle (R90). -/
  | decIdle
  /-- `dec_op = 0b101` to `0b111`: reserved, "treated as `0b000`" (R90). -/
  | decReserved
  /-- `tx_op = 0b00`: none (R92). -/
  | txIdle
  /-- `tx_op = 0b11`: reserved, "treated as `0b00`" (R92). -/
  | txReserved
  /-- `parts = 0b00` "is not a SendInstr" (R89). -/
  | partsZero
  /-- A 64-bit word with a reserved tag, other than the all-zero word: "neither a Command nor the sentinel" (R84). -/
  | reservedTag
  deriving DecidableEq, Repr

/-- What the decoder answers. -/
inductive Decoded where
  | instr (i : Instr)
  | reject (r : Reject)
  deriving DecidableEq, Repr

/-- The parameter registers P0 to P7 (10_state.md R30). -/
inductive ParamReg where
  | tLong
  | tGap
  | tBitMax
  | oneLo
  | oneHi
  | zeroLo
  | zeroHi
  | group
  deriving DecidableEq, Repr

/-- The input pins of one clock cycle of the port form (30_encoding.md R90, R92; 70_reset_and_hazards.md R230:
one `rst`, "optionally" split into `dec_rst` and `tx_rst`). `params` is the parameter values P0 to P7; none where the
integrator drives no values of its own (70_reset_and_hazards.md R231; log entry 8). -/
structure Pins where
  params    : Option Params
  decRst    : Bool
  txRst     : Bool
  decOp     : BitVec 3
  smpBit    : BitVec 1
  smpByte   : Byte
  encIn     : EncPort
  txOp      : BitVec 2
  cmdIn     : CmdWord
  sinkReady : Bool
  sinkErr   : Bool
  deriving DecidableEq, Repr

/-- What the outside world can do to the hardware in one step. -/
inductive Input where
  /-- Present one operation at transaction level (00_scope.md R8). -/
  | op (p : Presented)
  /-- The event `RESET`, for DEC, for TX or for both (70_reset_and_hazards.md R230). -/
  | reset (dec tx : Bool)
  /-- Set a parameter register (10_state.md R30). -/
  | setParam (r : ParamReg) (v : Nat)
  /-- One rising clock edge of the port form (30_encoding.md R90 to R92). -/
  | clock (pins : Pins)
  deriving DecidableEq, Repr

end Sys2Proof
end

