-- ==== Sys2Proof/Machine/State.lean ====
section
/-! DEFINITION. The state of the hardware, as plain data: agent DEC, agent TX, the encoder's results, the pins last
driven by the port form, and what the environment has still to present (spec 10_state.md R20 to R35). -/

namespace Sys2Proof.Machine

/-- `Class = {One, Zero, Unknown}` (00_scope.md R14). -/
inductive SymClass where
  | one
  | zero
  | unknown
  deriving DecidableEq, Repr

/-- A Symbol record `{start, fall, end, class}` (00_scope.md R13); `stop` is the spec's `end`. -/
structure Symbol where
  start : Nat
  fall  : Nat
  stop  : Nat
  cls   : SymClass
  deriving DecidableEq, Repr

/-- A Frame Boundary record `{start, end}` (R13); `stop` is the spec's `end`. -/
structure FrameBoundary where
  start : Nat
  stop  : Nat
  deriving DecidableEq, Repr

/-- A record of the record stream REC (20_memory.md R50). -/
inductive Record where
  | symbol (s : Symbol)
  | boundary (f : FrameBoundary)
  deriving DecidableEq, Repr

/-- A record as `Emit` puts it out: a Symbol carries the side-band value `grp` beside it (42_frame_boundary.md R156). -/
inductive Emitted where
  | symbol (s : Symbol) (grp : Nat)
  | boundary (f : FrameBoundary)
  deriving DecidableEq, Repr

/-- The outcome of an operation (60_exceptions.md R205). -/
inductive OpOutcome where
  | ok
  | sinkWriteFailure (k : Fin 8)
  | srcReadFailure
  | txClosed
  | decDone
  | badCommand
  | decTimeOverflow
  deriving DecidableEq, Repr

/-- `DecState = {Run, Done}` (10_state.md R26). -/
inductive DecMode where
  | run
  | done
  deriving DecidableEq, Repr

/-- `TxState = {Open, Closed}` (10_state.md R28). -/
inductive TxMode where
  | opened
  | closed
  deriving DecidableEq, Repr

/-- What the sink does with one block: take `k` of its 8 bytes and answer (20_memory.md R57), or take `k` bytes and never
answer for the next one (44_transmit_endpoint.md R192, log entry 6). -/
inductive SinkAnswer where
  | takes (k : Fin 9)
  | stalls (k : Fin 8)
  deriving DecidableEq, Repr

/-- What an observer saw of DEC between two resets (00_scope.md R9). -/
structure DecSession where
  emitted  : List Emitted
  outcomes : List OpOutcome
  deriving DecidableEq, Repr

/-- Agent DEC (10_state.md R20 to R30). -/
structure Dec where
  /-- `last_level`, `true` high (R21). -/
  lastLevel : Bool
  /-- `t`, the time index of the next sample (R22). -/
  t         : Nat
  /-- `last_rise` (R23). -/
  lastRise  : Nat
  /-- `last_fall` (R24). -/
  lastFall  : Nat
  /-- `dec_state` (R26). -/
  mode      : DecMode
  /-- `grp_cnt` (R27). -/
  grpCnt    : Nat
  /-- `dec_ovf` (R29); never set while `timeWidth` is `none`. -/
  ovf       : Bool
  /-- The parameter registers P0 to P7 (R30). -/
  params    : Params
  /-- `TW` of a finite implementation; `none` is the natural-number model (00_scope.md R7). No step writes it. -/
  timeWidth : Option Nat
  /-- Port form only: the samples of an `SMPB` in flight that are not yet processed; `dec_busy` is that there are some
  (30_encoding.md R91). -/
  flight    : List Bool
  /-- REC since the last reset of DEC, oldest first (20_memory.md R55). -/
  emitted   : List Emitted
  /-- The outcome of every DEC operation since then, oldest first (R9 (c)). -/
  outcomes  : List OpOutcome
  /-- What was observed before each earlier reset: "not recalled" (70_reset_and_hazards.md R231). -/
  past      : List DecSession
  deriving DecidableEq, Repr

/-- A block of `SEND` or `CLOSE` being offered to the sink, `sent` bytes of it accepted: the operation has not ended. -/
structure TxFlight where
  word : CmdWord
  sent : Fin 8
  deriving DecidableEq, Repr

/-- What an observer saw of TX between two resets (00_scope.md R9). -/
structure TxSession where
  sink     : List Byte
  outcomes : List OpOutcome
  deriving DecidableEq, Repr

/-- Agent TX, the Transmit Endpoint (10_state.md R28), with the sink as the environment plays it. -/
structure Tx where
  /-- `tx_state` (R28). -/
  mode     : TxMode
  /-- SINK since the last reset of TX, oldest byte first (20_memory.md R56). -/
  sink     : List Byte
  /-- The outcome of every `SEND` and `CLOSE` since then, oldest first. -/
  outcomes : List OpOutcome
  /-- The block in flight: in the port form until the sink has answered, where `tx_busy` is that there is one
  (30_encoding.md R92), and for ever behind a sink that never answers (44_transmit_endpoint.md R192). -/
  flight   : Option TxFlight
  /-- What was observed before each earlier reset. -/
  past     : List TxSession
  /-- The environment's: the sink's coming answers, first one first (20_memory.md R57). -/
  answers  : List SinkAnswer
  /-- The model's own: how many answers were drawn from `Config.freeSinkAnswer` (log entry 5). -/
  draws    : Nat
  deriving DecidableEq, Repr

/-- The encoder keeps no state (10_state.md R33); this is what `ENC` returned, oldest first (00_scope.md R9 (d)). -/
structure EncResults where
  returned : List CmdWord
  deriving DecidableEq, Repr

/-- The output pins as the last clock cycle of the port form left them (30_encoding.md R91, R92): an absent value
is a pin group whose valid or done signal is 0. -/
structure PortOut where
  /-- `dec_status`, when a DEC operation ended in this cycle. -/
  decStatus : Option OpOutcome
  /-- `sym_valid` and the Symbol's fields with the side-band `grp`. -/
  sym       : Option (Symbol × Nat)
  /-- `fb_valid` and the Frame Boundary's fields. -/
  fb        : Option FrameBoundary
  /-- `dec_busy`. -/
  decBusy   : Bool
  /-- `tx_done` and `tx_status`, when an endpoint operation ended in this cycle. -/
  txStatus  : Option OpOutcome
  /-- `tx_busy`. -/
  txBusy    : Bool
  /-- `tx_open`. -/
  txOpen    : Bool
  /-- `sink_valid` and `sink_byte`. -/
  sinkByte  : Option Byte
  /-- `enc_cmd`; absent before the first cycle, when no encoder input was presented. -/
  encCmd    : Option CmdWord
  deriving DecidableEq, Repr

/-- The whole machine. -/
structure State where
  /-- Agent DEC. -/
  dec    : Dec
  /-- Agent TX. -/
  tx     : Tx
  /-- What `ENC` returned. -/
  enc    : EncResults
  /-- The output pins of the port form. -/
  out    : PortOut
  /-- The environment's: what it presents from now on, first thing first (log entry 1). -/
  inputs : List Input
  deriving DecidableEq, Repr

/-- Why the machine stops with a fault: there is no such reason. An error ends its operation, not the machine
(60_exceptions.md R215, log entry 4), and a sink that never answers hangs TX alone (70_reset_and_hazards.md R247, log
entry 6). -/
inductive Fault where
  deriving DecidableEq, Repr

/-- Why the model gives no next state. -/
inductive Refusal where
  /-- Raised by `exec` for an instruction that has no meaning yet; none is left. Safe. -/
  | notModelled (mnemonic : String)
  /-- Raised by a parameter write, or by other values on the parameter pins, outside `dec_state = Run`, `t = 0`: "outside the
  rules; a model refuses it" (70_reset_and_hazards.md R243). Safe. -/
  | paramsLocked
  /-- Raised by a write to GROUP, or by its pin, of a value that is not 1 to 255: `GROUP = 0` "is refused at configuration time"
  (10_state.md R31). Safe. -/
  | groupIllegal
  /-- Raised by a parameter write, or by the parameter pins, with a time that the `TW` bits of its register cannot hold
  (10_state.md R30, log entry 7). Safe. -/
  | paramTooWide
  /-- Raised by an operation given at transaction level to an agent whose operation before it has not ended
  (70_reset_and_hazards.md R247, log entry 18). Safe. -/
  | agentBusy
  deriving DecidableEq, Repr

/-- DEC after RESET (10_state.md R35), in an implementation of the given time width. -/
def Dec.reset (timeWidth : Option Nat) : Dec where
  lastLevel := false
  t := 0
  lastRise := 0
  lastFall := 0
  mode := .run
  grpCnt := 0
  ovf := false
  params := defaultParams
  timeWidth := timeWidth
  flight := []
  emitted := []
  outcomes := []
  past := []

/-- TX after RESET (10_state.md R35), with no answer of the sink given beforehand. -/
def Tx.reset : Tx where
  mode := .opened
  sink := []
  outcomes := []
  flight := none
  past := []
  answers := []
  draws := 0

/-- No pin driven yet; `tx_open` shows `tx_state` (30_encoding.md R92). -/
def PortOut.reset : PortOut where
  decStatus := none
  sym := none
  fb := none
  decBusy := false
  txStatus := none
  txBusy := false
  txOpen := true
  sinkByte := none
  encCmd := none

/-- The machine right after reset (10_state.md R35): natural-number time, nothing presented. -/
def State.reset : State where
  dec := Dec.reset none
  tx := Tx.reset
  enc := ⟨[]⟩
  out := PortOut.reset
  inputs := []

/-- The same in a finite implementation of `TW` bits, 64 unless another width is named (00_scope.md R7, 10_state.md R29). -/
def State.resetFinite (timeWidth : Nat := defaultTimeWidth) : State :=
  { State.reset with dec := Dec.reset (some timeWidth) }

/-- Replace agent DEC. -/
def State.withDec (s : State) (d : Dec) : State := { s with dec := d }

/-- Replace agent TX. -/
def State.withTx (s : State) (x : Tx) : State := { s with tx := x }

/-- Record one more result of `ENC`. -/
def State.withEncResult (s : State) (w : CmdWord) : State :=
  { s with enc := ⟨s.enc.returned ++ [w]⟩ }

/-- Replace what the environment has still to present. -/
def State.withInputs (s : State) (l : List Input) : State := { s with inputs := l }

/-- Replace the output pins. -/
def State.withOut (s : State) (o : PortOut) : State := { s with out := o }

end Sys2Proof.Machine
end

