-- ==== Sys2Proof/Machine/Flags.lean ====
section
/-! DEFINITION. The status flags and the outcome codes: what refuses a DEC operation, how the time index advances and
when `dec_ovf` is set, the codes on the status ports (spec 10_state.md R22, R26, R29, 60_exceptions.md R205, R214,
30_encoding.md R88). -/

namespace Sys2Proof.Machine

/-- Why a DEC operation is refused, `DecTimeOverflow` before `DecDone` (60_exceptions.md R214). -/
def decRefusal (d : Dec) : Option OpOutcome :=
  match d.ovf, d.mode with
  | true, _ => some .decTimeOverflow
  | false, .done => some .decDone
  | false, .run => none

/-- `t` is at the last time of a finite implementation, `2^TW - 1` (10_state.md R29). -/
def atLastTime (d : Dec) : Bool :=
  match d.timeWidth with
  | none => false
  | some w => decide (2 ^ w ≤ d.t + 1)

/-- `t <- t + 1`, or at the last time `dec_ovf <- 1` "instead of incrementing `t`" (10_state.md R22, R29). -/
def tick (d : Dec) : Dec :=
  match atLastTime d with
  | true => { d with ovf := true }
  | false => { d with t := d.t + 1 }

/-- The outcome of a block of which the sink took `k` bytes: `k = 8` is success (20_memory.md R57). -/
def sinkOutcome (k : Fin 9) : OpOutcome :=
  if h : k.val < 8 then .sinkWriteFailure ⟨k.val, h⟩ else .ok

/-- The code on `dec_status` or `tx_status` (60_exceptions.md R205). -/
def outcomeCode : OpOutcome → BitVec 3
  | .ok => 0#3
  | .sinkWriteFailure _ => 1#3
  | .srcReadFailure => 2#3
  | .txClosed => 3#3
  | .decDone => 4#3
  | .badCommand => 5#3
  | .decTimeOverflow => 6#3

/-- The outcome is a refusal: "a refusal changes no state and writes no byte" (00_scope.md R15, 60_exceptions.md R205). -/
def isRefusal : OpOutcome → Bool
  | .ok => false
  | .sinkWriteFailure _ => false
  | .srcReadFailure => false
  | .txClosed => true
  | .decDone => true
  | .badCommand => true
  | .decTimeOverflow => true

/-- `class[1:0]` of a Symbol on the record port (30_encoding.md R88). -/
def classCode : SymClass → BitVec 2
  | .zero => 0b00#2
  | .one => 0b01#2
  | .unknown => 0b10#2

end Sys2Proof.Machine
end

