-- ==== Sys2Proof/Decode.lean ====
section
/-! DEFINITION. The decoder of port presentations and wire words, and after it the encoder (spec 30_encoding.md
R75 to R93, spec/opcode_table.json). -/

namespace Sys2Proof

/-- The mode tag of a Command (30_encoding.md R80). -/
def partsTag : Parts → BitVec 3
  | .preamble => 0b110#3
  | .data => 0b101#3
  | .all => 0b111#3

/-- `W[63:61]`, the tag field of a 64-bit word (R76). -/
def wordTag (w : CmdWord) : BitVec 3 := w.extractLsb' 61 3

/-- A 64-bit word is a Command exactly if its tag is `0b101`, `0b110` or `0b111` (R82, 44_transmit_endpoint.md R186). -/
def isCommand (w : CmdWord) : Bool :=
  wordTag w == 0b101#3 || wordTag w == 0b110#3 || wordTag w == 0b111#3

/-- `DecodeHeader(b) = (parts, skip)`; no value for a reserved tag (R83). -/
def decodeHeader (b : Byte) : Option (Parts × BitVec 5) :=
  let tag : BitVec 3 := b.extractLsb' 5 3
  let skip : BitVec 5 := b.extractLsb' 0 5
  if tag = 0b110#3 then some (.preamble, skip)
  else if tag = 0b101#3 then some (.data, skip)
  else if tag = 0b111#3 then some (.all, skip)
  else none

/-- A wire word by the match and mask values of the table's four CMD rows, its fields by R76. -/
def decodeWire (w : CmdWord) : Decoded :=
  let skip5 : BitVec 5 := w.extractLsb' 56 5
  let rep : BitVec 8 := w.extractLsb' 48 8
  let pre13 : BitVec 13 := w.extractLsb' 35 13
  let data35 : BitVec 35 := w.extractLsb' 0 35
  if w = 0#64 then .instr .cmdEnd
  else if wordTag w = 0b110#3 then .instr (.cmdPreamble skip5 rep pre13 data35)
  else if wordTag w = 0b101#3 then .instr (.cmdData skip5 rep pre13 data35)
  else if wordTag w = 0b111#3 then .instr (.cmdAll skip5 rep pre13 data35)
  else .reject .reservedTag

/-- Agent DEC's selector `dec_op` (R90). -/
def decodeDec (op : BitVec 3) (bit : BitVec 1) (byte : Byte) : Decoded :=
  if op = 0b000#3 then .reject .decIdle
  else if op = 0b001#3 then .instr (.smp (bit.getLsbD 0))
  else if op = 0b010#3 then .instr (.smpb byte)
  else if op = 0b011#3 then .instr .eos
  else if op = 0b100#3 then .instr .srcerr
  else .reject .decReserved

/-- The endpoint's selector `tx_op` (R92). -/
def decodeTx (op : BitVec 2) (cmd : CmdWord) : Decoded :=
  if op = 0b00#2 then .reject .txIdle
  else if op = 0b01#2 then .instr (.send cmd)
  else if op = 0b10#2 then .instr .close
  else .reject .txReserved

/-- The port code of `send_parts`: `Preamble = 0b10`, `Data = 0b01`, `All = 0b11` (R89). -/
def decodeParts (p : BitVec 2) : Option Parts :=
  if p = 0b10#2 then some .preamble
  else if p = 0b01#2 then some .data
  else if p = 0b11#2 then some .all
  else none

/-- The encoder's input port: always an `ENC`, but for `parts = 0b00` (R89, R93). -/
def decodeEnc (p : EncPort) : Decoded :=
  match decodeParts p.parts with
  | some parts => .instr (.enc ⟨parts, p.skip, p.rep, p.preamble, p.data⟩)
  | none => .reject .partsZero

/-- The decoder: total on every presentation, refusing by name what is no operation. -/
def decode : Presented → Decoded
  | .dec op bit byte => decodeDec op bit byte
  | .tx op cmd => decodeTx op cmd
  | .enc p => decodeEnc p
  | .wire w => decodeWire w

/-- The Command word of four fields, `tag ‖ skip5 ‖ repeat ‖ pre13 ‖ data35` (R76). -/
def packCommand (tag : BitVec 3) (skip5 : BitVec 5) (rep : BitVec 8) (pre13 : BitVec 13)
    (data35 : BitVec 35) : CmdWord :=
  tag ++ skip5 ++ rep ++ pre13 ++ data35

/-- The port code of `send_parts` (R89). -/
def encodeParts : Parts → BitVec 2
  | .preamble => 0b10#2
  | .data => 0b01#2
  | .all => 0b11#2

/-- The encoder: the presentation that stands for an operation or a wire word; an operand port that the operation
does not read is driven with zeros. -/
def encode : Instr → Presented
  | .cmdPreamble k r p d => .wire (packCommand 0b110#3 k r p d)
  | .cmdData k r p d => .wire (packCommand 0b101#3 k r p d)
  | .cmdAll k r p d => .wire (packCommand 0b111#3 k r p d)
  | .cmdEnd => .wire 0#64
  | .smp v => .dec 0b001#3 (BitVec.ofBool v) 0#8
  | .smpb b => .dec 0b010#3 0#1 b
  | .eos => .dec 0b011#3 0#1 0#8
  | .srcerr => .dec 0b100#3 0#1 0#8
  | .enc i => .enc ⟨encodeParts i.parts, i.skip, i.rep, i.preamble, i.data⟩
  | .send c => .tx 0b01#2 c
  | .close => .tx 0b10#2 0#64

/-- The presentation that the bits of a table row are (log entry 2): 64 bits are a wire word; 8 bits (or 3) the
selector `dec_op`, in the low 3 bits; 2 bits the selector `tx_op`. Operand ports carry zeros. -/
def presentedOfTable (nbits w : Nat) : Option Presented :=
  if nbits = 64 then some (.wire (BitVec.ofNat 64 w))
  else if nbits = 8 ∨ nbits = 3 then some (.dec (BitVec.ofNat 3 w) 0#1 0#8)
  else if nbits = 2 then some (.tx (BitVec.ofNat 2 w) 0#64)
  else none

/-- The instruction that the decoder reads from the bits of a table row. -/
def decodeTableWord (nbits w : Nat) : Option Instr :=
  match presentedOfTable nbits w with
  | none => none
  | some p =>
    match decode p with
    | .instr i => some i
    | .reject _ => none

end Sys2Proof
end

