-- ==== Sys2Proof/Machine/Operands.lean ====
section
/-! DEFINITION. Operand assembly: the samples of a byte, the bytes of a Command word, and the fields the encoder packs
(spec 20_memory.md R53, R54, 30_encoding.md R76 to R85, 43_command_encoder.md R166). -/

namespace Sys2Proof.Machine

/-- The eight samples of a byte in time order, bit 7 first (20_memory.md R53). -/
def byteSamples (b : Byte) : List Bool :=
  [b.getLsbD 7, b.getLsbD 6, b.getLsbD 5, b.getLsbD 4, b.getLsbD 3, b.getLsbD 2, b.getLsbD 1, b.getLsbD 0]

/-- `c.byte[i] = W(c)[63-8i : 56-8i]` (00_scope.md R10). -/
def commandByte (w : CmdWord) (i : Nat) : Byte := w.extractLsb' (56 - 8 * i) 8

/-- The eight bytes of a block in the order they are offered to the sink, `byte[0]` first (20_memory.md R54). -/
def commandBytes (w : CmdWord) : List Byte :=
  [commandByte w 0, commandByte w 1, commandByte w 2, commandByte w 3, commandByte w 4, commandByte w 5,
   commandByte w 6, commandByte w 7]

/-- The sentinel, eight zero bytes in word form (30_encoding.md R81). -/
def sentinel : CmdWord := 0#64

/-- `byte[0] <- (tag << 5) | (skip & 0x1F)` (43_command_encoder.md R166). -/
def headerByte (tag : BitVec 3) (skip : BitVec 8) : Byte :=
  (tag.setWidth 8 <<< 5) ||| (skip &&& 0x1F#8)

/-- `x <- (zext_64(preamble) << 35) | (data & 0x7FFFFFFFF)` (R166). -/
def packedOperands (preamble : BitVec 16) (data : BitVec 64) : BitVec 64 :=
  (preamble.setWidth 64 <<< 35) ||| (data &&& 0x7FFFFFFFF#64)

/-- `body <- x[47:0]` (R166). -/
def commandBody (preamble : BitVec 16) (data : BitVec 64) : BitVec 48 :=
  (packedOperands preamble data).extractLsb' 0 48

/-- The word of a header byte, the repeat byte and the big-endian body (R166, 00_scope.md R10). -/
def assembleCommand (tag : BitVec 3) (skip rep : BitVec 8) (preamble : BitVec 16) (data : BitVec 64) : CmdWord :=
  headerByte tag skip ++ rep ++ commandBody preamble data

/-- `ENC(send_parts, skip, repeat, preamble, data)` in word form (R166). -/
def encWord (i : SendInstr) : CmdWord :=
  assembleCommand (partsTag i.parts) i.skip i.rep i.preamble i.data

/-- What the encoder drives on `enc_cmd` for any value of its input port: `tag = 0b1 ‖ parts`, so `parts = 0b00` gives
the reserved tag `0b100` (30_encoding.md R89, R93). -/
def encPortWord (p : EncPort) : CmdWord :=
  assembleCommand (1#1 ++ p.parts) p.skip p.rep p.preamble p.data

end Sys2Proof.Machine
end

