-- ==== Sys2Proof/Machine/PulseClassifier.lean ====
section
/-! DEFINITION. The pulse classifier and the frame boundary detector: the records that a rising edge makes
(spec 41_pulse_classifier.md R120 to R131, 42_frame_boundary.md R150 to R155). -/

namespace Sys2Proof.Machine

/-- `classify(pos)`: both ends of each window inclusive, `One` tried first (41_pulse_classifier.md R126). -/
def classify (p : Params) (pos : Nat) : SymClass :=
  if p.oneLo ≤ pos ∧ pos ≤ p.oneHi then .one
  else if p.zeroLo ≤ pos ∧ pos ≤ p.zeroHi then .zero
  else .unknown

/-- The frame boundary test of step 4: `t >= bit_end_max` (42_frame_boundary.md R150, R151). -/
def boundaryRecords (t bitEndMax bitEnd : Nat) : List Record :=
  if bitEndMax ≤ t then [.boundary ⟨bitEnd, t⟩] else []

/-- The records of `RISE(t)`, steps 1 to 4 in their order (41_pulse_classifier.md R120, R128). Step 3 compares the
absolute time `t` (R123, log entry 11). -/
def riseRecords (p : Params) (lastRise lastFall t : Nat) : List Record :=
  let pos := lastFall - lastRise
  if p.tLong ≤ pos then [.symbol ⟨lastRise, lastFall, t, .unknown⟩]
  else if t ≤ pos + p.tGap then [.symbol ⟨lastRise, lastFall, t, .unknown⟩]
  else
    let bitEndMax := lastRise + p.tBitMax
    let bitEnd := min t bitEndMax
    .symbol ⟨lastRise, lastFall, bitEnd, classify p pos⟩ :: boundaryRecords t bitEndMax bitEnd

end Sys2Proof.Machine
end

