-- ==== Sys2Proof/Machine/Ops.lean ====
section
/-! DEFINITION. The shared operations: `Emit`, `RISE`, `FALL`, one sample, `SinkWrite`, the report of an outcome (this
hardware's only form of an exception: "control goes nowhere", spec 60_exceptions.md R215), and `RESET`. -/

namespace Sys2Proof.Machine

/-- `Emit(r)`: append to REC; a Symbol takes the value of the grouping counter and advances it, a Frame Boundary
zeroes it (42_frame_boundary.md R156). -/
def emit (d : Dec) : Record → Dec
  | .symbol s =>
    { d with emitted := d.emitted ++ [.symbol s d.grpCnt], grpCnt := (d.grpCnt + 1) % d.params.group }
  | .boundary f => { d with emitted := d.emitted ++ [.boundary f], grpCnt := 0 }

/-- `Emit` of several records in order. -/
def emitAll (d : Dec) (rs : List Record) : Dec := rs.foldl emit d

/-- `RISE(t)` at the current time: the records with the old `last_rise`, then step 5 (41_pulse_classifier.md R120, R125). -/
def rise (d : Dec) : Dec :=
  { emitAll d (riseRecords d.params d.lastRise d.lastFall d.t) with lastRise := d.t }

/-- `FALL(t)` at the current time: `last_fall <- t` (40_edge_detector.md R104). -/
def fall (d : Dec) : Dec := { d with lastFall := d.t }

/-- The edge work of one sample: none, `FALL` or `RISE` (R100, R101, R102). -/
def edgeWork (v : Bool) (d : Dec) : Dec :=
  if v = d.lastLevel then d
  else match v with
    | false => fall d
    | true => rise d

/-- One sample that is not refused: the edge work, `last_level <- v`, `t <- t + 1` (R100). -/
def takeSample (v : Bool) (d : Dec) : Dec := tick { edgeWork v d with lastLevel := v }

/-- `SMP v`: its outcome and the agent after it (R100). -/
def smpOp (v : Bool) (d : Dec) : OpOutcome × Dec :=
  match decRefusal d with
  | some r => (r, d)
  | none => (.ok, takeSample v d)

/-- Samples one after another as long as none is refused (R105). DESIGN CHOICE (log entry 30): if `dec_ovf` is set by the last
sample, none is left to refuse and the operation ends `ok`. -/
def smpSeq : List Bool → Dec → OpOutcome × Dec
  | [], d => (.ok, d)
  | v :: vs, d =>
    match decRefusal d with
    | some r => (r, d)
    | none => smpSeq vs (takeSample v d)

/-- `SMPB b` (R105). -/
def smpbOp (b : Byte) (d : Dec) : OpOutcome × Dec :=
  match decRefusal d with
  | some r => (r, d)
  | none => smpSeq (byteSamples b) d

/-- `EOS`: one synthetic sample of level `NOT last_level`, then `dec_state <- Done` (R106). -/
def eosOp (d : Dec) : OpOutcome × Dec :=
  match decRefusal d with
  | some r => (r, d)
  | none => (.ok, { takeSample (!d.lastLevel) d with mode := .done })

/-- `SRCERR`: `dec_state <- Done`, then the error `SrcReadFailure` (R107). -/
def srcerrOp (d : Dec) : OpOutcome × Dec :=
  match decRefusal d with
  | some r => (r, d)
  | none => (.srcReadFailure, { d with mode := .done })

/-- Report the outcome of a DEC operation with its completion (60_exceptions.md R215). -/
def reportDec (r : OpOutcome × Dec) : Dec := { r.2 with outcomes := r.2.outcomes ++ [r.1] }

/-- A DEC operation of the whole machine: it touches agent DEC only and always ends with an outcome. An agent "must be given
its next operation only after the previous one has ended" (70_reset_and_hazards.md R247, log entry 18). -/
def runDec (f : Dec → OpOutcome × Dec) (s : State) : Host.Outcome State Fault Refusal :=
  match s.dec.flight with
  | _ :: _ => .refused .agentBusy
  | [] => .next (s.withDec (reportDec (f s.dec)))

/-- Report the outcome of an endpoint operation. -/
def reportTx (o : OpOutcome) (x : Tx) : Tx := { x with outcomes := x.outcomes ++ [o] }

/-- The sink's next answer: the one given beforehand, else a free draw (20_memory.md R57, log entry 5). -/
def nextAnswer (x : Tx) : SinkAnswer × Tx :=
  match x.answers with
  | a :: rest => (a, { x with answers := rest })
  | [] => (.takes (Config.freeSinkAnswer x.draws), { x with draws := x.draws + 1 })

/-- `SinkWrite` of one block and the outcome it gives: the first `k` bytes are in SINK (20_memory.md R57,
44_transmit_endpoint.md R187). Behind a sink that never answers the block stays in flight, with no outcome: "TX is then
stuck" (R192, log entry 6). -/
def writeBlock (w : CmdWord) (x : Tx) : Tx :=
  match nextAnswer x with
  | (.takes k, x') => reportTx (sinkOutcome k) { x' with sink := x'.sink ++ (commandBytes w).take k.val }
  | (.stalls k, x') => { x' with sink := x'.sink ++ (commandBytes w).take k.val, flight := some ⟨w, k⟩ }

/-- `SEND c`: `TxClosed`, then `BadCommand`, then the write (44_transmit_endpoint.md R185, 60_exceptions.md R214). -/
def sendOp (c : CmdWord) (x : Tx) : Tx :=
  match x.mode with
  | .closed => reportTx .txClosed x
  | .opened =>
    match isCommand c with
    | false => reportTx .badCommand x
    | true => writeBlock c x

/-- `CLOSE`: `TxClosed`, else `tx_state <- Closed` before the sentinel is written (44_transmit_endpoint.md R188). -/
def closeOp (x : Tx) : Tx :=
  match x.mode with
  | .closed => reportTx .txClosed x
  | .opened => writeBlock sentinel { x with mode := .closed }

/-- An endpoint operation of the whole machine: it touches agent TX only, and is given only to an endpoint whose operation
before it has ended (70_reset_and_hazards.md R247, log entry 18). -/
def runTx (f : Tx → Tx) (s : State) : Host.Outcome State Fault Refusal :=
  match s.tx.flight with
  | some _ => .refused .agentBusy
  | none => .next (s.withTx (f s.tx))

/-- A parameter register is "written only while `dec_state = Run` and `t = 0`" (10_state.md R30). -/
def paramsOpen (d : Dec) : Bool := decide (d.mode = .run ∧ d.t = 0)

/-- The value of a parameter register. -/
def getParam (r : ParamReg) (p : Params) : Nat :=
  match r with
  | .tLong => p.tLong
  | .tGap => p.tGap
  | .tBitMax => p.tBitMax
  | .oneLo => p.oneLo
  | .oneHi => p.oneHi
  | .zeroLo => p.zeroLo
  | .zeroHi => p.zeroHi
  | .group => p.group

/-- The value fits in `TW` bits; with natural-number time every one does. -/
def fitsTime (timeWidth : Option Nat) (v : Nat) : Bool :=
  match timeWidth with
  | none => true
  | some w => decide (v < 2 ^ w)

/-- The value fits in its register: P0 to P6 have the bits `[TW-1:0]`, P7 is no time (10_state.md R30). -/
def paramFits (timeWidth : Option Nat) (r : ParamReg) (v : Nat) : Bool :=
  match r with
  | .tLong => fitsTime timeWidth v
  | .tGap => fitsTime timeWidth v
  | .tBitMax => fitsTime timeWidth v
  | .oneLo => fitsTime timeWidth v
  | .oneHi => fitsTime timeWidth v
  | .zeroLo => fitsTime timeWidth v
  | .zeroHi => fitsTime timeWidth v
  | .group => true

/-- Every value of the record fits in its register. -/
def paramsFit (timeWidth : Option Nat) (p : Params) : Bool :=
  [.tLong, .tGap, .tBitMax, .oneLo, .oneHi, .zeroLo, .zeroHi, .group].all fun r =>
    paramFits timeWidth r (getParam r p)

/-- `RESET` of agent DEC: the values of 10_state.md R35; what was observed is not recalled (70_reset_and_hazards.md
R231), and an `SMPB` in flight is abandoned with no outcome (R232). -/
def resetDec (d : Dec) : Dec :=
  { Dec.reset d.timeWidth with past := d.past ++ [⟨d.emitted, d.outcomes⟩] }

/-- `RESET` of agent TX: it writes nothing; a block in flight is abandoned (70_reset_and_hazards.md R230 to R232). The
sink's coming answers are the environment's and stay. -/
def resetTx (x : Tx) : Tx :=
  { Tx.reset with past := x.past ++ [⟨x.sink, x.outcomes⟩], answers := x.answers, draws := x.draws }

end Sys2Proof.Machine
end

