-- ==== Sys2Proof/Machine/CommandEncoder.lean ====
section
/-! DEFINITION. The command encoder (spec 43_command_encoder.md section 1). -/

namespace Sys2Proof.Machine

/-- ENC: returns the Command; "`ENC` reads no state and writes no state" (R165), what it returned is observed (00_scope.md
R9 (d)). -/
def execEnc (i : SendInstr) (s : State) : Host.Outcome State Fault Refusal :=
  .next (s.withEncResult (encWord i))

end Sys2Proof.Machine
end

