-- ==== Sys2Proof/Machine/EdgeDetector.lean ====
section
/-! DEFINITION. The operations of agent DEC (spec 40_edge_detector.md). -/

namespace Sys2Proof.Machine

/-- SMP (R100). -/
def execSmp (v : Bool) (s : State) : Host.Outcome State Fault Refusal := runDec (smpOp v) s

/-- SMPB (R105). -/
def execSmpb (b : Byte) (s : State) : Host.Outcome State Fault Refusal := runDec (smpbOp b) s

/-- EOS (R106). -/
def execEos (s : State) : Host.Outcome State Fault Refusal := runDec eosOp s

/-- SRCERR (R107). -/
def execSrcerr (s : State) : Host.Outcome State Fault Refusal := runDec srcerrOp s

end Sys2Proof.Machine
end

