-- ==== Sys2Proof/Machine/TransmitEndpoint.lean ====
section
/-! DEFINITION. The operations of the Transmit Endpoint (spec 44_transmit_endpoint.md). -/

namespace Sys2Proof.Machine

/-- SEND (R185). -/
def execSend (c : CmdWord) (s : State) : Host.Outcome State Fault Refusal := runTx (sendOp c) s

/-- CLOSE (R188). -/
def execClose (s : State) : Host.Outcome State Fault Refusal := runTx closeOp s

end Sys2Proof.Machine
end

