-- ==== Sys2Proof/Machine/WireWords.lean ====
section
/-! DEFINITION. The four wire words (spec 43_command_encoder.md section 2). What this hardware does with a wire word is
to put it on SINK: a Command word by `SEND`, the sentinel by `CLOSE` (log entry 3). -/

namespace Sys2Proof.Machine

/-- CMD.PREAMBLE: the word with tag `0b110` goes to the sink (R172, R185). -/
def execCmdPreamble (skip5 : BitVec 5) (rep : BitVec 8) (pre13 : BitVec 13) (data35 : BitVec 35) (s : State) :
    Host.Outcome State Fault Refusal :=
  runTx (sendOp (packCommand 0b110#3 skip5 rep pre13 data35)) s

/-- CMD.DATA: the word with tag `0b101` goes to the sink (R173, R185). -/
def execCmdData (skip5 : BitVec 5) (rep : BitVec 8) (pre13 : BitVec 13) (data35 : BitVec 35) (s : State) :
    Host.Outcome State Fault Refusal :=
  runTx (sendOp (packCommand 0b101#3 skip5 rep pre13 data35)) s

/-- CMD.ALL: the word with tag `0b111` goes to the sink (R174, R185). -/
def execCmdAll (skip5 : BitVec 5) (rep : BitVec 8) (pre13 : BitVec 13) (data35 : BitVec 35) (s : State) :
    Host.Outcome State Fault Refusal :=
  runTx (sendOp (packCommand 0b111#3 skip5 rep pre13 data35)) s

/-- CMD.END: "Produced by: `CLOSE` only" (R175, R188). -/
def execCmdEnd (s : State) : Host.Outcome State Fault Refusal := runTx closeOp s

end Sys2Proof.Machine
end

