-- ==== Sys2Proof/Machine/Dispatch.lean ====
section
/-! DEFINITION. One arm per row of spec/opcode_table.json. -/

namespace Sys2Proof.Machine

def exec (i : Instr) (s : State) : Host.Outcome State Fault Refusal :=
  match i with
  | .cmdPreamble k r p d => Sys2Proof.Machine.execCmdPreamble k r p d s
  | .cmdData k r p d => Sys2Proof.Machine.execCmdData k r p d s
  | .cmdAll k r p d => Sys2Proof.Machine.execCmdAll k r p d s
  | .cmdEnd => Sys2Proof.Machine.execCmdEnd s
  | .smp v => Sys2Proof.Machine.execSmp v s
  | .smpb b => Sys2Proof.Machine.execSmpb b s
  | .eos => Sys2Proof.Machine.execEos s
  | .srcerr => Sys2Proof.Machine.execSrcerr s
  | .enc x => Sys2Proof.Machine.execEnc x s
  | .send c => Sys2Proof.Machine.execSend c s
  | .close => Sys2Proof.Machine.execClose s

end Sys2Proof.Machine
end

