-- ==== Sys2Proof/WellFormed.lean ====
section
/-! DEFINITION. Which operations and which configuration records are well formed (spec 44_transmit_endpoint.md R186,
10_state.md R30, R31). An ill-formed operation still runs, to the refusal the spec gives it. -/

namespace Sys2Proof

/-- "The operand of `SEND` must be a Command" (R186); every other operand is legal at every value (30_encoding.md
R84, R85, R87). -/
def Instr.wf : Instr → Bool
  | .cmdPreamble _ _ _ _ => true
  | .cmdData _ _ _ _ => true
  | .cmdAll _ _ _ _ => true
  | .cmdEnd => true
  | .smp _ => true
  | .smpb _ => true
  | .eos => true
  | .srcerr => true
  | .enc _ => true
  | .send c => isCommand c
  | .close => true

/-- A legal configuration record: `GROUP >= 1`, in 8 bits (10_state.md R30); the seven times are any natural numbers (R31)
that their registers can hold, which is `paramsFit` of Machine/Ops.lean. -/
def Params.wf (p : Params) : Bool := decide (1 ≤ p.group ∧ p.group ≤ 255)

end Sys2Proof
end

