-- ==== Sys2Proof/Machine/Ports.lean ====
section
/-! DEFINITION. The port form: what one rising clock edge does (spec 30_encoding.md R90 to R93, 70_reset_and_hazards.md
R230, R232; log entry 17). The cycle counts are "binding only for this port form" (R91). -/

namespace Sys2Proof.Machine

/-- The parameter values on the pins: the registers take them where they may be written and can hold them (10_state.md R30),
so after a reset they are "at their defaults unless the integrator drives other values" (70_reset_and_hazards.md R231; log entry 8). -/
def driveParams (p : Pins) (d : Dec) : Dec :=
  match p.params with
  | none => d
  | some q =>
    match paramsOpen d && (q.wf && paramsFit d.timeWidth q) with
    | true => { d with params := q }
    | false => d

/-- The next sample of an `SMPB`, one a cycle; the operation ends with its last sample, or with `DecTimeOverflow` when a
sample is refused (30_encoding.md R91, 40_edge_detector.md R105). DESIGN CHOICE: an `SMPB` refused when it is accepted ends
in that cycle, `dec_busy` staying 0 (log entry 31); one whose last sample sets `dec_ovf` ends `ok` (log entry 30). -/
def flightStep : List Bool → Dec → Dec
  | [], d => d
  | v :: vs, d =>
    match decRefusal d with
    | some r => reportDec (r, { d with flight := [] })
    | none =>
      match vs with
      | [] => reportDec (.ok, { takeSample v d with flight := [] })
      | _ :: _ => { takeSample v d with flight := vs }

/-- The operation that `dec_op` selects, in the cycle that accepts it (R90); `SMPB` takes its first sample in it. -/
def startDec (p : Pins) (d : Dec) : Dec :=
  if p.decOp = 0b001#3 then reportDec (smpOp (p.smpBit.getLsbD 0) d)
  else if p.decOp = 0b010#3 then flightStep (byteSamples p.smpByte) d
  else if p.decOp = 0b011#3 then reportDec (eosOp d)
  else if p.decOp = 0b100#3 then reportDec (srcerrOp d)
  else d

/-- Agent DEC at one clock edge that does not reset it: an `SMPB` in flight goes on and no new `dec_op` is accepted
(30_encoding.md R91), else the selected operation runs. -/
def advanceDec (p : Pins) (d : Dec) : Dec :=
  match d.flight with
  | [] => startDec p d
  | v :: vs => flightStep (v :: vs) d

/-- Agent DEC at one clock edge: reset has priority (70_reset_and_hazards.md R230), and the parameter values on the pins hold
for the operation of the same cycle. -/
def clockDec (p : Pins) (d : Dec) : Dec :=
  match p.decRst with
  | true => driveParams p (resetDec d)
  | false => advanceDec p (driveParams p d)

/-- The block in flight at one edge: a failure at the current byte ends it, an accepted byte advances it, else it waits
(30_encoding.md R92). -/
def flightByte (p : Pins) (f : TxFlight) (x : Tx) : Tx :=
  match p.sinkErr with
  | true => reportTx (.sinkWriteFailure f.sent) { x with flight := none }
  | false =>
    match p.sinkReady with
    | false => x
    | true =>
      if h : f.sent.val + 1 < 8 then
        { x with sink := x.sink ++ [commandByte f.word f.sent.val], flight := some ⟨f.word, ⟨f.sent.val + 1, h⟩⟩ }
      else
        reportTx .ok { x with sink := x.sink ++ [commandByte f.word f.sent.val], flight := none }

/-- The byte on offer in a cycle that resets TX: the sink accepts it all the same if it is ready and does not fail
(30_encoding.md R92), so it is in SINK, and it is the last one of its block (70_reset_and_hazards.md R232). -/
def acceptByte (p : Pins) (x : Tx) : Tx :=
  match x.flight, p.sinkReady && !p.sinkErr with
  | some f, true => { x with sink := x.sink ++ [commandByte f.word f.sent.val] }
  | some _, false => x
  | none, _ => x

/-- `SEND` accepted: its block is offered from the next cycle on (log entry 17). DESIGN CHOICE: one that is refused ends in the
cycle that accepts it, `tx_busy` staying 0 (log entry 32). -/
def startSend (c : CmdWord) (x : Tx) : Tx :=
  match x.mode with
  | .closed => reportTx .txClosed x
  | .opened =>
    match isCommand c with
    | false => reportTx .badCommand x
    | true => { x with flight := some ⟨c, 0⟩ }

/-- `CLOSE` accepted: closed before the sentinel is offered (44_transmit_endpoint.md R188, log entry 17). DESIGN CHOICE: one that
is refused ends in the cycle that accepts it, `tx_busy` staying 0 (log entry 32). -/
def startClose (x : Tx) : Tx :=
  match x.mode with
  | .closed => reportTx .txClosed x
  | .opened => { x with mode := .closed, flight := some ⟨sentinel, 0⟩ }

/-- The operation that `tx_op` selects (R92). -/
def startTx (p : Pins) (x : Tx) : Tx :=
  if p.txOp = 0b01#2 then startSend p.cmdIn x
  else if p.txOp = 0b10#2 then startClose x
  else x

/-- Agent TX at one clock edge. -/
def clockTx (p : Pins) (x : Tx) : Tx :=
  match p.txRst with
  | true => resetTx (acceptByte p x)
  | false =>
    match x.flight with
    | none => startTx p x
    | some f => flightByte p f x

/-- The outcome that an agent reported in a cycle. -/
def newOutcome (rst : Bool) (before after : List OpOutcome) : Option OpOutcome :=
  match rst with
  | true => none
  | false => (after.drop before.length).head?

/-- The records that DEC emitted in a cycle. -/
def newEmitted (rst : Bool) (before after : List Emitted) : List Emitted :=
  match rst with
  | true => []
  | false => after.drop before.length

/-- The Symbol of a cycle, with `grp`. -/
def firstSymbol : List Emitted → Option (Symbol × Nat)
  | [] => none
  | .symbol s g :: _ => some (s, g)
  | .boundary _ :: l => firstSymbol l

/-- The Frame Boundary of a cycle. -/
def firstBoundary : List Emitted → Option FrameBoundary
  | [] => none
  | .symbol _ _ :: l => firstBoundary l
  | .boundary f :: _ => some f

/-- The output pins after a cycle that took the agents from `d`, `x` to `d'`, `x'` (30_encoding.md R91, R92). -/
def drivePins (p : Pins) (d d' : Dec) (x x' : Tx) : PortOut where
  decStatus := newOutcome p.decRst d.outcomes d'.outcomes
  sym := firstSymbol (newEmitted p.decRst d.emitted d'.emitted)
  fb := firstBoundary (newEmitted p.decRst d.emitted d'.emitted)
  decBusy := !d'.flight.isEmpty
  txStatus := newOutcome p.txRst x.outcomes x'.outcomes
  txBusy := x'.flight.isSome
  txOpen := decide (x'.mode = .opened)
  sinkByte := x'.flight.map fun f => commandByte f.word f.sent.val
  encCmd := some (encPortWord p.encIn)

/-- One rising clock edge: both agents at once, which share nothing (20_memory.md R63). -/
def clockCycle (p : Pins) (s : State) : State :=
  ((s.withDec (clockDec p s.dec)).withTx (clockTx p s.tx)).withOut
    (drivePins p s.dec (clockDec p s.dec) s.tx (clockTx p s.tx))

end Sys2Proof.Machine
end

