-- ==== Sys2Proof/Machine/Inputs.lean ====
section
/-! DEFINITION. What one input of the environment does: an operation presented at transaction level, `RESET`, a parameter
write, a clock edge (spec 00_scope.md R8, 10_state.md R30, 70_reset_and_hazards.md R230, R233). -/

namespace Sys2Proof.Machine

/-- A presentation that selects no operation: idle and reserved selectors change nothing (30_encoding.md R90, R92); the
encoder drives the word with tag `0b100` for `parts = 0b00` (R89); a word with a reserved tag can only be offered to
`SEND`, which refuses it (R84). -/
def noOperation (p : Presented) (s : State) : Host.Outcome State Fault Refusal :=
  match p with
  | .dec _ _ _ => .next s
  | .tx _ _ => .next s
  | .enc e => .next (s.withEncResult (encPortWord e))
  | .wire w => execSend w s

/-- One presentation at transaction level. -/
def present (p : Presented) (s : State) : Host.Outcome State Fault Refusal :=
  match decode p with
  | .instr i => exec i s
  | .reject _ => noOperation p s

/-- A parameter register set to a value. -/
def setParam (r : ParamReg) (v : Nat) (p : Params) : Params :=
  match r with
  | .tLong => { p with tLong := v }
  | .tGap => { p with tGap := v }
  | .tBitMax => { p with tBitMax := v }
  | .oneLo => { p with oneLo := v }
  | .oneHi => { p with oneHi := v }
  | .zeroLo => { p with zeroLo := v }
  | .zeroHi => { p with zeroHi := v }
  | .group => { p with group := v }

/-- The value is legal for the register: any natural number, `1 <= GROUP <= 255` (10_state.md R30, R31). -/
def paramLegal (r : ParamReg) (v : Nat) : Bool :=
  match r with
  | .group => decide (1 ≤ v ∧ v ≤ 255)
  | .tLong => true
  | .tGap => true
  | .tBitMax => true
  | .oneLo => true
  | .oneHi => true
  | .zeroLo => true
  | .zeroHi => true

/-- A parameter write (log entries 7, 8). -/
def writeParam (r : ParamReg) (v : Nat) (s : State) : Host.Outcome State Fault Refusal :=
  if paramsOpen s.dec then
    if paramLegal r v then
      if paramFits s.dec.timeWidth r v then .next (s.withDec { s.dec with params := setParam r v s.dec.params })
      else .refused .paramTooWide
    else .refused .groupIllegal
  else .refused .paramsLocked

/-- The event `RESET` for the agents named (70_reset_and_hazards.md R230). -/
def applyReset (dec tx : Bool) (s : State) : State :=
  (s.withDec (if dec then resetDec s.dec else s.dec)).withTx (if tx then resetTx s.tx else s.tx)

/-- What the parameter pins of a cycle break: at configuration time GROUP illegal (10_state.md R31) or a time too wide for its
register (R30, log entry 7), later values other than the registers' (70_reset_and_hazards.md R243; log entry 8). -/
def paramPinsRefusal (p : Pins) (d : Dec) : Option Refusal :=
  match p.params with
  | none => none
  | some q =>
    match p.decRst || paramsOpen d with
    | true =>
      if q.wf then
        if paramsFit d.timeWidth q then none else some .paramTooWide
      else some .groupIllegal
    | false => if q = d.params then none else some .paramsLocked

/-- A clock edge of the port form. -/
def runClock (p : Pins) (s : State) : Host.Outcome State Fault Refusal :=
  match paramPinsRefusal p s.dec with
  | some r => .refused r
  | none => .next (clockCycle p s)

/-- One input of the environment. -/
def runInput (i : Input) (s : State) : Host.Outcome State Fault Refusal :=
  match i with
  | .op p => present p s
  | .reset dec tx => .next (applyReset dec tx s)
  | .setParam r v => writeParam r v s
  | .clock pins => runClock pins s

/-- The presentation that the bits of a table row are; an idle selection where they are none. -/
def tablePresentation (nbits w : Nat) : Presented :=
  (presentedOfTable nbits w).getD (.dec 0#3 0#1 0#8)

/-- Both agents without an operation in flight. -/
def withoutFlights (s : State) : State :=
  (s.withDec { s.dec with flight := [] }).withTx { s.tx with flight := none }

end Sys2Proof.Machine
end

