-- ==== Sys2Proof/Machine/Step.lean ====
section
/-! DEFINITION. One step of the whole machine: take the environment's next input and do it (log entry 1). -/

namespace Sys2Proof.Machine

/-- One step. With nothing presented "an agent … holds its state unchanged" (spec 60_exceptions.md R223). -/
def step (s : State) : Host.Outcome State Fault Refusal :=
  match s.inputs with
  | [] => .next s
  | i :: rest => runInput i (s.withInputs rest)

/-- The same state with the operation that the bits of a table row are presented first (log entries 1 and 2). -/
def State.withFetchWord (s : State) (nbits w : Nat) : State :=
  (withoutFlights s).withInputs (.op (tablePresentation nbits w) :: s.inputs)

end Sys2Proof.Machine
end

