-- ==== Sys2Proof/Machine/Programs.lean ====
section
/-! DEFINITION. The spec's own way of writing a sequence of operations, one a line (spec 30_encoding.md R94, R95, its
decision D24). -/

namespace Sys2Proof.Machine

/-- A line of R94; the `k` of `SEND` and `CLOSE` is the sink's answer ("default `k=8`"). -/
inductive Line where
  | reset
  | smp (v : Bool)
  | smpb (b : Byte)
  | eos
  | srcerr
  | enc (i : SendInstr)
  | send (c : CmdWord) (k : Fin 9)
  | close (k : Fin 9)
  deriving DecidableEq, Repr

/-- `SMPB 0xNN *c` (R95). -/
def smpbTimes (b : Byte) (c : Nat) : List Line := List.replicate c (.smpb b)

/-- `LEVEL v *c` (R95). -/
def levelTimes (v : Bool) (c : Nat) : List Line := List.replicate c (.smp v)

/-- `SEND {…}`: `SEND` of the Command that `ENC {…}` returns (R95). -/
def sendEncoded (i : SendInstr) (k : Fin 9) : Line := .send (encWord i) k

/-- The operation with the sink answering `k` if it is asked. -/
def withSinkAnswer (k : Fin 9) (i : Instr) (s : State) : Host.Outcome State Fault Refusal :=
  match exec i (s.withTx { s.tx with answers := [.takes k] }) with
  | .next s' => .next (s'.withTx { s'.tx with answers := s.tx.answers })
  | .fault e => .fault e
  | .refused e => .refused e

/-- What a line does (R94). -/
def runLine (l : Line) (s : State) : Host.Outcome State Fault Refusal :=
  match l with
  | .reset => .next (applyReset true true s)
  | .smp v => exec (.smp v) s
  | .smpb b => exec (.smpb b) s
  | .eos => exec .eos s
  | .srcerr => exec .srcerr s
  | .enc i => exec (.enc i) s
  | .send c k => withSinkAnswer k (.send c) s
  | .close k => withSinkAnswer k .close s

/-- The lines of a program in order, stopping where one stops. -/
def runLines : List Line → State → Host.Outcome State Fault Refusal
  | [], s => .next s
  | l :: ls, s =>
    match runLine l s with
    | .next s' => runLines ls s'
    | .fault e => .fault e
    | .refused e => .refused e

end Sys2Proof.Machine
end

