-- ==== Sys2Proof/Safety.lean ====
section
/-! DEFINITION. The terms the statements use: runs of operations and of clock cycles, which agent an operation belongs to,
the time after a sample, and the invariants of the two agents. -/

namespace Sys2Proof.Machine

/-- Operations one after another, stopping where one stops. -/
def runOps : List Instr → State → Host.Outcome State Fault Refusal
  | [], s => .next s
  | i :: l, s =>
    match exec i s with
    | .next s' => runOps l s'
    | .fault e => .fault e
    | .refused e => .refused e

/-- Clock edges of the port form one after another. -/
def clockRun (ps : List Pins) (s : State) : State := ps.foldl (fun s p => clockCycle p s) s

/-- The operation belongs to agent DEC (00_scope.md R8). -/
def decInstr : Instr → Bool
  | .smp _ => true
  | .smpb _ => true
  | .eos => true
  | .srcerr => true
  | .cmdPreamble _ _ _ _ => false
  | .cmdData _ _ _ _ => false
  | .cmdAll _ _ _ _ => false
  | .cmdEnd => false
  | .enc _ => false
  | .send _ => false
  | .close => false

/-- `t` after a sample: one more, but at the last time `2^TW - 1` of a finite implementation (10_state.md R22, R29). -/
def timeAfter (d : Dec) : Nat :=
  match d.timeWidth with
  | none => d.t + 1
  | some w => if d.t + 1 < 2 ^ w then d.t + 1 else d.t

/-- `dec_ovf` after a sample (10_state.md R29). -/
def ovfAfter (d : Dec) : Bool :=
  match d.timeWidth with
  | none => d.ovf
  | some w => if d.t + 1 < 2 ^ w then d.ovf else true

/-- The seven times of a configuration record are below `2^TW` in a finite implementation (10_state.md R30). -/
def timesWithin (timeWidth : Option Nat) (p : Params) : Prop :=
  ∀ w, timeWidth = some w → p.tLong < 2 ^ w ∧ p.tGap < 2 ^ w ∧ p.tBitMax < 2 ^ w ∧ p.oneLo < 2 ^ w ∧ p.oneHi < 2 ^ w ∧
    p.zeroLo < 2 ^ w ∧ p.zeroHi < 2 ^ w

/-- The record of an emission, without the side-band value (00_scope.md R13). -/
def recordOf : Emitted → Record
  | .symbol s _ => .symbol s
  | .boundary f => .boundary f

/-- REC since the last reset of DEC. -/
def records (d : Dec) : List Record := d.emitted.map recordOf

/-- What DEC emitted from `d` to `d'`. -/
def emittedBetween (d d' : Dec) : List Emitted := d'.emitted.drop d.emitted.length

/-- The emission is a Frame Boundary. -/
def isBoundary : Emitted → Bool
  | .symbol _ _ => false
  | .boundary _ => true

/-- The invariant of agent DEC: legal parameters, the grouping counter in its range, `last_fall >= last_rise` while low
(10_state.md R25), edges not later than the samples taken, and the time width respected, by the time index (R29) and by
every time parameter but a reset value (R30, R35). -/
def DecInv (d : Dec) : Prop :=
  d.params.wf = true ∧
  d.grpCnt < d.params.group ∧
  (d.lastLevel = false → d.lastRise < d.lastFall ∨ (d.lastRise = 0 ∧ d.lastFall = 0)) ∧
  (d.lastLevel = true → d.lastFall ≤ d.lastRise) ∧
  d.lastRise ≤ d.t ∧ d.lastFall ≤ d.t ∧
  (d.ovf = false → 0 < d.t → d.lastRise < d.t ∧ d.lastFall < d.t) ∧
  (d.t = 0 → d.lastLevel = false ∧ d.grpCnt = 0 ∧ d.emitted = []) ∧
  (d.timeWidth = none → d.ovf = false) ∧
  (∀ w, d.timeWidth = some w → 0 < w ∧ d.t < 2 ^ w ∧ (d.ovf = true → d.t + 1 = 2 ^ w)) ∧
  (∀ r, paramFits d.timeWidth r (getParam r d.params) = true ∨ getParam r d.params = getParam r defaultParams)

/-- Read a record stream from a place `at_` where the next Symbol must start: every Symbol starts there with
`start <= fall`, a Frame Boundary stands only right after a Symbol, starts at that Symbol's end and does not run
backwards (41_pulse_classifier.md R129). The answer is where the next Symbol must start; none if the stream is broken. -/
def chainEnd (at_ : Nat) (afterSymbol : Bool) : List Record → Option Nat
  | [] => some at_
  | .symbol s :: l => if s.start = at_ ∧ s.start ≤ s.fall then chainEnd s.stop true l else none
  | .boundary f :: l =>
    if afterSymbol = true ∧ f.start = at_ ∧ f.start ≤ f.stop then chainEnd f.stop false l else none

/-- The record stream is one unbroken chain from time 0 to the latest rising edge (41_pulse_classifier.md R129). -/
def StreamInv (d : Dec) : Prop := chainEnd 0 false (records d) = some d.lastRise

/-- No operation of the session met a failure of the sink. -/
def noSinkFailure (x : Tx) : Prop := ∀ k, OpOutcome.sinkWriteFailure k ∉ x.outcomes

/-- What stands in SINK behind the Commands: the sentinel once closed, or the accepted bytes of the block in flight. -/
def sinkTail (x : Tx) : List Byte :=
  match x.flight with
  | some f => (commandBytes f.word).take f.sent.val
  | none =>
    match x.mode with
    | .closed => commandBytes sentinel
    | .opened => []

/-- The session invariant of agent TX (44_transmit_endpoint.md R193): a block in flight is a Command while open and the
sentinel once closed; without a sink failure SINK is whole Commands, then the sentinel if and only if closed. -/
def SessionInv (x : Tx) : Prop :=
  (∀ f, x.flight = some f → (x.mode = .opened → isCommand f.word = true) ∧ (x.mode = .closed → f.word = sentinel)) ∧
  (noSinkFailure x →
    ∃ cs : List CmdWord, (∀ c ∈ cs, isCommand c = true) ∧ x.sink = cs.flatMap commandBytes ++ sinkTail x)

/-- The next input resets agent DEC. -/
def resetsDec (s : State) : Bool :=
  match s.inputs with
  | .reset dec _ :: _ => dec
  | .clock p :: _ => p.decRst
  | .op _ :: _ => false
  | .setParam _ _ :: _ => false
  | [] => false

/-- The next input resets agent TX. -/
def resetsTx (s : State) : Bool :=
  match s.inputs with
  | .reset _ tx :: _ => tx
  | .clock p :: _ => p.txRst
  | .op _ :: _ => false
  | .setParam _ _ :: _ => false
  | [] => false

/-- The next input writes a parameter register. -/
def writesParam (s : State) : Bool :=
  match s.inputs with
  | .setParam _ _ :: _ => true
  | .reset _ _ :: _ => false
  | .clock _ :: _ => false
  | .op _ :: _ => false
  | [] => false

/-- Two decoders alike but for the grouping counter, the GROUP parameter and the side-band values. -/
def sameButGrouping (d d' : Dec) : Prop :=
  records d = records d' ∧
  { d with grpCnt := d'.grpCnt, emitted := d'.emitted, params := { d.params with group := d'.params.group } } = d'

end Sys2Proof.Machine
end

