-- ==== Sys2Proof/Certificates/Slice0/Obligations.lean ====
section
/-! DEFINITION. The statements for the provers. Each docstring names the rule, decision or log entry it rests on. -/

open Sys2Proof Sys2Proof.Machine

/-- R170: the reference vector, worked through rule R166 step by step, and `ENC` returns it. -/
def Obligations.EncReproducesReferenceVector : Prop :=
  partsTag .all = 0b111#3 ∧ headerByte 0b111#3 0#8 = 0xE0#8 ∧
  (0x0007#16).setWidth 64 <<< 35 = 0x3800000000#64 ∧
  0x312345678#64 &&& 0x7FFFFFFFF#64 = 0x312345678#64 ∧
  packedOperands 0x0007#16 0x312345678#64 = 0x3B12345678#64 ∧
  commandBody 0x0007#16 0x312345678#64 = 0x003B12345678#48 ∧
  encWord ⟨.all, 0#8, 1#8, 0x0007#16, 0x312345678#64⟩ = 0xE001003B12345678#64 ∧
  commandBytes (encWord ⟨.all, 0#8, 1#8, 0x0007#16, 0x312345678#64⟩) =
    [0xE0#8, 0x01#8, 0x00#8, 0x3B#8, 0x12#8, 0x34#8, 0x56#8, 0x78#8] ∧
  ∀ s : State, exec (.enc ⟨.all, 0#8, 1#8, 0x0007#16, 0x312345678#64⟩) s =
    .next { s with enc := ⟨s.enc.returned ++ [0xE001003B12345678#64]⟩ }

/-- R77, R78, R79: the header byte, the repeat byte and the six big-endian body bytes of every encoded Command. -/
def Obligations.EncodedBytesFollowLayout : Prop :=
  ∀ i : SendInstr,
    let x : BitVec 64 := (i.preamble.setWidth 64 <<< 35) ||| (i.data &&& 0x7FFFFFFFF#64)
    let body : BitVec 48 := x.extractLsb' 0 48
    let c := encWord i
    commandByte c 0 = ((partsTag i.parts).setWidth 8 <<< 5) ||| (i.skip &&& 0x1F#8) ∧
    (commandByte c 0).extractLsb' 5 3 = partsTag i.parts ∧
    (commandByte c 0).extractLsb' 0 5 = (i.skip &&& 0x1F#8).extractLsb' 0 5 ∧
    commandByte c 1 = i.rep ∧
    ∀ n : Nat, n ≤ 5 → commandByte c (2 + n) = body.extractLsb' (40 - 8 * n) 8

/-- R80: the three mode tags, the header bytes they give with `skip5 = 0`, no other tag is ever produced, and which tag
bits are set in which mode. -/
def Obligations.ModeTagsAreTheThree : Prop :=
  partsTag .preamble = 0b110#3 ∧ partsTag .data = 0b101#3 ∧ partsTag .all = 0b111#3 ∧
  (∀ i : SendInstr, i.skip.extractLsb' 0 5 = 0#5 →
    commandByte (encWord i) 0 =
      (match i.parts with | .preamble => 0xC0#8 | .data => 0xA0#8 | .all => 0xE0#8)) ∧
  (∀ i : SendInstr, wordTag (encWord i) = 0b110#3 ∨ wordTag (encWord i) = 0b101#3 ∨ wordTag (encWord i) = 0b111#3) ∧
  (∀ p : Parts, (partsTag p).getLsbD 2 = true ∧
    ((partsTag p).getLsbD 1 = true ↔ p = .preamble ∨ p = .all) ∧
    ((partsTag p).getLsbD 0 = true ↔ p = .data ∨ p = .all))

/-- R165, R166, R169 (the word form is the spec's own inference in R166): `ENC` completes in every state, returns
`tag ‖ skip[4:0] ‖ repeat ‖ preamble[12:0] ‖ data[34:0]` and changes nothing else. -/
def Obligations.EncReturnsPackedOperands : Prop :=
  ∀ (i : SendInstr) (s : State),
    exec (.enc i) s = .next { s with enc := ⟨s.enc.returned ++
      [(match i.parts with | .preamble => 0b110#3 | .data => 0b101#3 | .all => 0b111#3) ++
        (i.skip.extractLsb' 0 5 : BitVec 5) ++ i.rep ++ (i.preamble.extractLsb' 0 13 : BitVec 13) ++
        (i.data.extractLsb' 0 35 : BitVec 35)]⟩ }

/-- R167: the four masking laws, with the examples of the rule; no truncation is reported, `ENC` completes. -/
def Obligations.EncoderMaskingLaws : Prop :=
  (∀ (i : SendInstr) (data : BitVec 64), i.data.extractLsb' 0 35 = data.extractLsb' 0 35 →
    encWord { i with data := data } = encWord i) ∧
  (∀ (i : SendInstr) (skip : BitVec 8), i.skip.extractLsb' 0 5 = skip.extractLsb' 0 5 →
    encWord { i with skip := skip } = encWord i) ∧
  (∀ i : SendInstr, ((commandByte (encWord i) 0).extractLsb' 0 5).toNat = i.skip.toNat % 32) ∧
  (∀ (i : SendInstr) (pre : BitVec 16), i.preamble.extractLsb' 0 13 = pre.extractLsb' 0 13 →
    encWord { i with preamble := pre } = encWord i) ∧
  (∀ i : SendInstr, commandByte (encWord i) 1 = i.rep) ∧
  (∀ (i : SendInstr) (s : State), ∃ s', exec (.enc i) s = .next s') ∧
  commandBytes (encWord ⟨.all, 5#8, 3#8, 0xFFFF#16, 0#64⟩) = [0xE5#8, 3#8, 0xFF#8, 0xF8#8, 0#8, 0#8, 0#8, 0#8] ∧
  commandBytes (encWord ⟨.all, 5#8, 3#8, 0x1FFF#16, 0#64⟩) = [0xE5#8, 3#8, 0xFF#8, 0xF8#8, 0#8, 0#8, 0#8, 0#8] ∧
  commandBytes (encWord ⟨.all, 5#8, 3#8, 0xE000#16, 0#64⟩) = [0xE5#8, 3#8, 0#8, 0#8, 0#8, 0#8, 0#8, 0#8] ∧
  commandBytes (encWord ⟨.all, 5#8, 3#8, 0#16, 0xFFFFFFFFFFFFFFFF#64⟩) =
    [0xE5#8, 3#8, 0#8, 7#8, 0xFF#8, 0xFF#8, 0xFF#8, 0xFF#8] ∧
  commandBytes (encWord ⟨.all, 5#8, 3#8, 0#16, 0x7FFFFFFFF#64⟩) =
    [0xE5#8, 3#8, 0#8, 7#8, 0xFF#8, 0xFF#8, 0xFF#8, 0xFF#8] ∧
  commandBytes (encWord ⟨.all, 5#8, 3#8, 0#16, 0x800000000#64⟩) =
    commandBytes (encWord ⟨.all, 5#8, 3#8, 0#16, 0#64⟩)

/-- R82 (the spec's own inference): the image of the encoder is exactly the words with one of the three tags, and the
first byte alone tells a Command from the sentinel. -/
def Obligations.EncoderImageIsTheCommands : Prop :=
  (∀ w : CmdWord, isCommand w = true ↔ ∃ i : SendInstr, encWord i = w) ∧
  (∀ w : CmdWord, isCommand w = true → 0xA0#8 ≤ commandByte w 0 ∧ w ≠ sentinel)

/-- R171 with `DecodeHeader` of R83 (its clause for `skip >= 32` is the spec's own inference). -/
def Obligations.HeaderRoundTrip : Prop :=
  (∀ i : SendInstr, i.skip.toNat ≤ 31 →
    decodeHeader (commandByte (encWord i) 0) = some (i.parts, BitVec.ofNat 5 i.skip.toNat)) ∧
  (∀ i : SendInstr,
    decodeHeader (commandByte (encWord i) 0) = some (i.parts, BitVec.ofNat 5 (i.skip.toNat % 32)))

/-- R126 (on overlapping windows `One` wins by decision D8, the spec's own): the class function for every configuration
record, and the five ranges of the default record. -/
def Obligations.ClassifyFollowsWindows : Prop :=
  (∀ (p : Params) (n : Nat),
    (classify p n = .one ↔ p.oneLo ≤ n ∧ n ≤ p.oneHi) ∧
    (classify p n = .zero ↔ (n < p.oneLo ∨ p.oneHi < n) ∧ p.zeroLo ≤ n ∧ n ≤ p.zeroHi) ∧
    (classify p n = .unknown ↔ (n < p.oneLo ∨ p.oneHi < n) ∧ (n < p.zeroLo ∨ p.zeroHi < n))) ∧
  (∀ n : Nat, (n ≤ 9 → classify defaultParams n = .unknown) ∧
    (10 ≤ n → n ≤ 29 → classify defaultParams n = .one) ∧
    (30 ≤ n → n ≤ 39 → classify defaultParams n = .unknown) ∧
    (40 ≤ n → n ≤ 79 → classify defaultParams n = .zero) ∧
    (80 ≤ n → classify defaultParams n = .unknown))

/-- R102: a sample of the current level makes no output and leaves everything but the time index (with the overflow flag
of a finite implementation, R29) and the reported outcome; a stream that never changes level emits nothing. -/
def Obligations.SmpWithoutEdgeOnlyAdvancesTime : Prop :=
  (∀ s : State, s.dec.flight = [] → s.dec.ovf = false → s.dec.mode = .run →
    exec (.smp s.dec.lastLevel) s = .next { s with dec := { s.dec with
      t := timeAfter s.dec, ovf := ovfAfter s.dec, outcomes := s.dec.outcomes ++ [.ok] } }) ∧
  (∀ (n : Nat) (s : State), s.dec.flight = [] → ∃ s', runOps (List.replicate n (.smp s.dec.lastLevel)) s = .next s' ∧
    s'.dec.emitted = s.dec.emitted ∧ s'.dec.lastRise = s.dec.lastRise ∧ s'.dec.lastFall = s.dec.lastFall ∧
    s'.dec.grpCnt = s.dec.grpCnt ∧ s'.dec.mode = s.dec.mode ∧ s'.dec.lastLevel = s.dec.lastLevel)

/-- R100, R104 (`last_level <- v` is decision D4, the spec's own): a falling edge records its time and nothing else. -/
def Obligations.SmpFallingEdgeRecordsTime : Prop :=
  ∀ s : State, s.dec.flight = [] → s.dec.ovf = false → s.dec.mode = .run → s.dec.lastLevel = true →
    exec (.smp false) s = .next { s with dec := { s.dec with
      lastLevel := false, lastFall := s.dec.t, t := timeAfter s.dec, ovf := ovfAfter s.dec,
      outcomes := s.dec.outcomes ++ [.ok] } }

/-- R100, R120 to R125, R150, R156 (decisions D4, D10, D19, D20 are the spec's own; log entries 11, 19): a rising edge, by
steps 2 and 3, by step 4 without a boundary, and by step 4 with one. -/
def Obligations.SmpRisingEdgeEmitsBySteps : Prop :=
  ∀ s : State, s.dec.flight = [] → s.dec.ovf = false → s.dec.mode = .run → s.dec.lastLevel = false →
    let d := s.dec
    let pos := d.lastFall - d.lastRise
    ((d.params.tLong ≤ pos ∨ d.t ≤ pos + d.params.tGap) →
      exec (.smp true) s = .next { s with dec := { d with
        lastLevel := true, lastRise := d.t, t := timeAfter d, ovf := ovfAfter d,
        emitted := d.emitted ++ [.symbol ⟨d.lastRise, d.lastFall, d.t, .unknown⟩ d.grpCnt],
        grpCnt := (d.grpCnt + 1) % d.params.group, outcomes := d.outcomes ++ [.ok] } }) ∧
    (pos < d.params.tLong → pos + d.params.tGap < d.t → d.t < d.lastRise + d.params.tBitMax →
      exec (.smp true) s = .next { s with dec := { d with
        lastLevel := true, lastRise := d.t, t := timeAfter d, ovf := ovfAfter d,
        emitted := d.emitted ++ [.symbol ⟨d.lastRise, d.lastFall, d.t, classify d.params pos⟩ d.grpCnt],
        grpCnt := (d.grpCnt + 1) % d.params.group, outcomes := d.outcomes ++ [.ok] } }) ∧
    (pos < d.params.tLong → pos + d.params.tGap < d.t → d.lastRise + d.params.tBitMax ≤ d.t →
      exec (.smp true) s = .next { s with dec := { d with
        lastLevel := true, lastRise := d.t, t := timeAfter d, ovf := ovfAfter d,
        emitted := d.emitted ++
          [.symbol ⟨d.lastRise, d.lastFall, d.lastRise + d.params.tBitMax, classify d.params pos⟩ d.grpCnt,
           .boundary ⟨d.lastRise + d.params.tBitMax, d.t⟩],
        grpCnt := 0, outcomes := d.outcomes ++ [.ok] } })

/-- R153: when a Frame Boundary is and is not emitted, exactly; the capped Symbol before it; the two counter-examples. -/
def Obligations.FrameBoundaryExactlyWhen : Prop :=
  (∀ s : State, s.dec.flight = [] → s.dec.ovf = false → s.dec.mode = .run → s.dec.lastLevel = false →
    let pos := s.dec.lastFall - s.dec.lastRise
    ∃ s', exec (.smp true) s = .next s' ∧
      ((∃ f, .boundary f ∈ emittedBetween s.dec s'.dec) ↔
        pos < s.dec.params.tLong ∧ pos + s.dec.params.tGap < s.dec.t ∧
        s.dec.lastRise + s.dec.params.tBitMax ≤ s.dec.t) ∧
      (pos < s.dec.params.tLong → pos + s.dec.params.tGap < s.dec.t →
        s.dec.lastRise + s.dec.params.tBitMax ≤ s.dec.t →
        ∃ c g, emittedBetween s.dec s'.dec =
          [.symbol ⟨s.dec.lastRise, s.dec.lastFall, s.dec.lastRise + s.dec.params.tBitMax, c⟩ g,
           .boundary ⟨s.dec.lastRise + s.dec.params.tBitMax, s.dec.t⟩])) ∧
  (∀ s : State, s.dec.flight = [] → s.dec.ovf = false → s.dec.mode = .run → s.dec.lastLevel = false →
    s.dec.params = defaultParams →
    s.dec.lastRise = 200 → s.dec.lastFall = 300 → s.dec.t = 350 →
    ∃ s', exec (.smp true) s = .next s' ∧
      (emittedBetween s.dec s'.dec).map recordOf = [.symbol ⟨200, 300, 350, .unknown⟩]) ∧
  (∀ s : State, s.dec.flight = [] → s.dec.ovf = false → s.dec.mode = .run → s.dec.lastLevel = false →
    s.dec.params = defaultParams →
    s.dec.lastRise = 0 → s.dec.lastFall = 50 → s.dec.t = 120 →
    ∃ s', exec (.smp true) s = .next s' ∧
      (emittedBetween s.dec s'.dec).map recordOf = [.symbol ⟨0, 50, 120, .unknown⟩])

/-- R127, R123 (step 3 on the absolute time is decision D19; that it is dead from `T_LONG + T_GAP` on is the spec's own
inference): the class of the Symbol of a rising edge is `Unknown` in exactly three cases. -/
def Obligations.SymbolUnknownExactlyWhen : Prop :=
  ∀ s : State, s.dec.flight = [] → s.dec.ovf = false → s.dec.mode = .run → s.dec.lastLevel = false →
    let p := s.dec.params
    let pos := s.dec.lastFall - s.dec.lastRise
    ∃ s' stop c g rest, exec (.smp true) s = .next s' ∧
      emittedBetween s.dec s'.dec = .symbol ⟨s.dec.lastRise, s.dec.lastFall, stop, c⟩ g :: rest ∧
      (c = .unknown ↔ p.tLong ≤ pos ∨ s.dec.t ≤ pos + p.tGap ∨
        (¬ (p.oneLo ≤ pos ∧ pos ≤ p.oneHi) ∧ ¬ (p.zeroLo ≤ pos ∧ pos ≤ p.zeroHi))) ∧
      (p.tLong + p.tGap ≤ s.dec.t → pos < p.tLong → c = classify p pos)

/-- R131: the threshold properties with the default parameters, for a pulse of `n` ticks closed at a time where step 3
does not fire; the class, and the `end` that tells step 4 from step 2. -/
def Obligations.ThresholdBoundariesClassify : Prop :=
  ∀ (n : Nat) (s : State), s.dec.flight = [] → s.dec.ovf = false → s.dec.mode = .run → s.dec.lastLevel = false →
    s.dec.params = defaultParams → s.dec.lastFall = s.dec.lastRise + n → n + 90 < s.dec.t →
    ∃ s', exec (.smp true) s = .next s' ∧
      (n = 9 ∨ n = 30 → (records s'.dec)[s.dec.emitted.length]? =
        some (.symbol ⟨s.dec.lastRise, s.dec.lastFall, min s.dec.t (s.dec.lastRise + 110), .unknown⟩)) ∧
      (n = 10 ∨ n = 29 → (records s'.dec)[s.dec.emitted.length]? =
        some (.symbol ⟨s.dec.lastRise, s.dec.lastFall, min s.dec.t (s.dec.lastRise + 110), .one⟩)) ∧
      (n = 40 ∨ n = 79 → (records s'.dec)[s.dec.emitted.length]? =
        some (.symbol ⟨s.dec.lastRise, s.dec.lastFall, min s.dec.t (s.dec.lastRise + 110), .zero⟩)) ∧
      (n = 100 → (records s'.dec)[s.dec.emitted.length]? =
        some (.symbol ⟨s.dec.lastRise, s.dec.lastFall, s.dec.t, .unknown⟩))

/-- R26, R29, R205, R214 (decisions D2, D7, D16, the spec's own; log entries 4, 7, 12): every DEC operation is refused with
`DecTimeOverflow` after an overflow, else with `DecDone` in `Done`; only the reported outcome is new. -/
def Obligations.DecOperationsRefused : Prop :=
  ∀ (i : Instr) (s : State), decInstr i = true → s.dec.flight = [] →
    (s.dec.ovf = true →
      exec i s = .next { s with dec := { s.dec with outcomes := s.dec.outcomes ++ [.decTimeOverflow] } }) ∧
    (s.dec.ovf = false → s.dec.mode = .done →
      exec i s = .next { s with dec := { s.dec with outcomes := s.dec.outcomes ++ [.decDone] } })

/-- R105, R53 (time as a counter is decision D5; `DecTimeOverflow` inside a byte is D2): `SMPB` is exactly its eight `SMP`
operations, bit 7 first, reported as one operation with the outcome of the last of them. That this outcome is `ok` where the
eighth sample is the one at `2^TW - 1` is the model's choice between two readings of R105 (log entry 30). -/
def Obligations.SmpbIsItsEightSamples : Prop :=
  ∀ (b : Byte) (s : State), s.dec.flight = [] → ∃ s' o,
    runOps [.smp (b.getLsbD 7), .smp (b.getLsbD 6), .smp (b.getLsbD 5), .smp (b.getLsbD 4),
      .smp (b.getLsbD 3), .smp (b.getLsbD 2), .smp (b.getLsbD 1), .smp (b.getLsbD 0)] s = .next s' ∧
    s'.dec.outcomes.getLast? = some o ∧
    exec (.smpb b) s = .next { s' with dec := { s'.dec with outcomes := s.dec.outcomes ++ [o] } }

/-- R22, R53, R59: a byte advances the time index by 8, ends `ok` at the level of bit 0, and touches DEC only; before that,
sample `j` of the byte is taken at time `t + j` with the level of bit `7 - j`. -/
def Obligations.SmpbAdvancesTimeByEight : Prop :=
  ∀ (b : Byte) (s : State), s.dec.flight = [] → s.dec.ovf = false → s.dec.mode = .run →
    (s.dec.timeWidth = none ∨ ∃ w, s.dec.timeWidth = some w ∧ s.dec.t + 8 < 2 ^ w) →
    (∃ d : Dec, exec (.smpb b) s = .next { s with dec := d } ∧ d.t = s.dec.t + 8 ∧ d.lastLevel = b.getLsbD 0 ∧
      d.mode = .run ∧ d.ovf = false ∧ d.outcomes = s.dec.outcomes ++ [.ok] ∧ d.params = s.dec.params) ∧
    (∀ j : Nat, j ≤ 7 → (byteSamples b)[j]? = some (b.getLsbD (7 - j)) ∧
      ∃ s', runOps (((byteSamples b).take j).map .smp) s = .next s' ∧ s'.dec.t = s.dec.t + j)

/-- R106 (the form of the extra transition is decision D6, the spec's own; log entry 10): `EOS` is one sample of the level
opposite to `last_level`, then `Done`; a stream that ended high only gets its falling time. -/
def Obligations.EosAppendsOneTransition : Prop :=
  ∀ s : State, s.dec.flight = [] → s.dec.ovf = false → s.dec.mode = .run →
    (∃ s', exec (.smp (!s.dec.lastLevel)) s = .next s' ∧
      exec .eos s = .next { s' with dec := { s'.dec with mode := .done } }) ∧
    (s.dec.lastLevel = true → exec .eos s = .next { s with dec := { s.dec with
      lastLevel := false, lastFall := s.dec.t, t := timeAfter s.dec, ovf := ovfAfter s.dec, mode := .done,
      outcomes := s.dec.outcomes ++ [.ok] } }) ∧
    (s.dec.lastLevel = false → ∃ d stop c rest, exec .eos s = .next { s with dec := d } ∧ d.mode = .done ∧
      d.lastLevel = true ∧ d.lastRise = s.dec.t ∧ d.lastFall = s.dec.lastFall ∧ d.t = timeAfter s.dec ∧
      d.outcomes = s.dec.outcomes ++ [.ok] ∧
      emittedBetween s.dec d = .symbol ⟨s.dec.lastRise, s.dec.lastFall, stop, c⟩ s.dec.grpCnt :: rest)

/-- R107 (decision D17, the spec's own): a source failure ends the decode; no extra transition, nothing else changes. -/
def Obligations.SrcerrEndsTheDecode : Prop :=
  ∀ s : State, s.dec.flight = [] → s.dec.ovf = false → s.dec.mode = .run →
    exec .srcerr s = .next { s with dec := { s.dec with
      mode := .done, outcomes := s.dec.outcomes ++ [.srcReadFailure] } }

/-- R29 (decision D2, the spec's own; log entry 7): the sample at the last time of a finite implementation is processed,
`t` stays and `dec_ovf` is set; at any earlier time, and always with natural-number time, `t` rises by one. -/
def Obligations.LastTimeSetsOverflow : Prop :=
  ∀ (v : Bool) (s : State), s.dec.flight = [] → s.dec.ovf = false → s.dec.mode = .run →
    (∀ w, s.dec.timeWidth = some w → s.dec.t + 1 = 2 ^ w →
      ∃ d, exec (.smp v) s = .next { s with dec := d } ∧ d.t = s.dec.t ∧ d.ovf = true ∧ d.lastLevel = v ∧
        d.mode = .run ∧ d.outcomes = s.dec.outcomes ++ [.ok]) ∧
    ((s.dec.timeWidth = none ∨ ∃ w, s.dec.timeWidth = some w ∧ s.dec.t + 1 < 2 ^ w) →
      ∃ d, exec (.smp v) s = .next { s with dec := d } ∧ d.t = s.dec.t + 1 ∧ d.ovf = false ∧ d.lastLevel = v ∧
        d.mode = .run ∧ d.outcomes = s.dec.outcomes ++ [.ok])

/-- R15, R106, R212 (a) with natural-number time (decision D2): any samples and bytes and then `EOS` all end `ok`. -/
def Obligations.DecodeNeverFailsOnContent : Prop :=
  ∀ (ops : List Instr) (s : State), (∀ i ∈ ops, (∃ v, i = .smp v) ∨ ∃ b, i = .smpb b) →
    s.dec.timeWidth = none → s.dec.flight = [] → s.dec.ovf = false → s.dec.mode = .run →
    ∃ d, runOps (ops ++ [.eos]) s = .next { s with dec := d } ∧ d.mode = .done ∧
      d.outcomes = s.dec.outcomes ++ List.replicate (ops.length + 1) .ok

/-- R27, R156 (the counter's details are decision D10): the grouping counter and GROUP never affect the record stream, the
state or an outcome, whatever the operation. -/
def Obligations.GroupingNeverAffectsRecords : Prop :=
  ∀ (i : Instr) (s s' : State) (d : Dec), sameButGrouping s.dec d → exec i s = .next s' →
    ∃ d', exec i { s with dec := d } = .next { s' with dec := d' } ∧ sameButGrouping s'.dec d'

/-- R55, R59: how many records an operation emits: `SMP` and `EOS` none, one, or a Symbol then a Frame Boundary; `SMPB` at
most eight; what was emitted stays; no other operation emits. -/
def Obligations.RecordsPerOperation : Prop :=
  ∀ (i : Instr) (s s' : State), exec i s = .next s' →
    ∃ l : List Emitted, s'.dec.emitted = s.dec.emitted ++ l ∧
      (((∃ v, i = .smp v) ∨ i = .eos) →
        l = [] ∨ (∃ y g, l = [.symbol y g]) ∨ ∃ y g f, l = [.symbol y g, .boundary f]) ∧
      ((∃ b, i = .smpb b) → l.length ≤ 8) ∧
      (decInstr i = false ∨ i = .srcerr → l = [])

/-- R185, R187, R57, R54 (which prefix a failing sink took is decision D12, free; the tag check is D18; log entries 5,
14): `SEND` of a Command writes its bytes in index order, as many as the sink takes, and stays open. -/
def Obligations.SendWritesCommandBytes : Prop :=
  ∀ (c : CmdWord) (s : State), s.tx.flight = none → s.tx.mode = .opened →
    (c.extractLsb' 61 3 = 0b101#3 ∨ c.extractLsb' 61 3 = 0b110#3 ∨ c.extractLsb' 61 3 = 0b111#3) →
    let bytes : List Byte := [c.extractLsb' 56 8, c.extractLsb' 48 8, c.extractLsb' 40 8, c.extractLsb' 32 8,
      c.extractLsb' 24 8, c.extractLsb' 16 8, c.extractLsb' 8 8, c.extractLsb' 0 8]
    (∀ rest, s.tx.answers = .takes 8 :: rest →
      exec (.send c) s = .next { s with tx := { s.tx with
        sink := s.tx.sink ++ bytes, outcomes := s.tx.outcomes ++ [.ok], answers := rest } }) ∧
    (∀ (k : Fin 8) rest, s.tx.answers = .takes k.castSucc :: rest →
      exec (.send c) s = .next { s with tx := { s.tx with
        sink := s.tx.sink ++ bytes.take k.val, outcomes := s.tx.outcomes ++ [.sinkWriteFailure k],
        answers := rest } }) ∧
    (s.tx.answers = [] → ∃ k : Fin 9,
      exec (.send c) s = .next { s with tx := { s.tx with
        sink := s.tx.sink ++ bytes.take k.val, outcomes := s.tx.outcomes ++ [sinkOutcome k],
        draws := s.tx.draws + 1 } })

/-- R93, R95, R166, R185 (byte order is decision D22, the notation D24, the spec's own): `SEND {…}`, the Command that `ENC`
returns, is never refused on an open endpoint: its eight bytes, laid out from the operands, go to SINK as far as the sink
takes them; closed, it is refused. -/
def Obligations.EncodedCommandReachesSink : Prop :=
  ∀ (i : SendInstr) (k : Fin 9) (s : State), s.tx.flight = none →
    let tag : BitVec 3 := match i.parts with | .preamble => 0b110#3 | .data => 0b101#3 | .all => 0b111#3
    let bytes : List Byte := [tag ++ (i.skip.extractLsb' 0 5 : BitVec 5), i.rep, i.preamble.extractLsb' 5 8,
      (i.preamble.extractLsb' 0 5 : BitVec 5) ++ (i.data.extractLsb' 32 3 : BitVec 3), i.data.extractLsb' 24 8,
      i.data.extractLsb' 16 8, i.data.extractLsb' 8 8, i.data.extractLsb' 0 8]
    (s.tx.mode = .opened → runLine (sendEncoded i k) s = .next { s with tx := { s.tx with
      sink := s.tx.sink ++ bytes.take k.val, outcomes := s.tx.outcomes ++ [sinkOutcome k] } }) ∧
    (s.tx.mode = .closed → runLine (sendEncoded i k) s = .next { s with tx := { s.tx with
      outcomes := s.tx.outcomes ++ [.txClosed] } })

/-- R188, R189, R57 (closed before the write whatever the sink does is decision D13, which prefix a failing sink took is D12):
`CLOSE` writes the sentinel, as much of it as the sink takes, and the endpoint is closed. That it ends with no answer given
beforehand is the model's choice: a free answer always comes (log entry 5). -/
def Obligations.CloseWritesSentinelAndCloses : Prop :=
  ∀ s : State, s.tx.flight = none → s.tx.mode = .opened →
    (∀ rest, s.tx.answers = .takes 8 :: rest →
      exec .close s = .next { s with tx := { s.tx with
        mode := .closed,
        sink := s.tx.sink ++ List.replicate 8 0#8, outcomes := s.tx.outcomes ++ [.ok], answers := rest } }) ∧
    (∀ (k : Fin 8) rest, s.tx.answers = .takes k.castSucc :: rest →
      exec .close s = .next { s with tx := { s.tx with
        mode := .closed,
        sink := s.tx.sink ++ List.replicate k.val 0#8, outcomes := s.tx.outcomes ++ [.sinkWriteFailure k],
        answers := rest } }) ∧
    (s.tx.answers = [] → ∃ k : Fin 9,
      exec .close s = .next { s with tx := { s.tx with
        mode := .closed,
        sink := s.tx.sink ++ List.replicate k.val 0#8, outcomes := s.tx.outcomes ++ [sinkOutcome k],
        draws := s.tx.draws + 1 } })

/-- R186, R190, R214 (decisions D14, D16, D18, the spec's own): a closed endpoint refuses `SEND` and `CLOSE`, an open one a
word that is no Command; no byte is offered, only the outcome is new. -/
def Obligations.EndpointRefusals : Prop :=
  ∀ (c : CmdWord) (s : State), s.tx.flight = none →
    (s.tx.mode = .closed →
      exec (.send c) s = .next { s with tx := { s.tx with outcomes := s.tx.outcomes ++ [.txClosed] } } ∧
      exec .close s = .next { s with tx := { s.tx with outcomes := s.tx.outcomes ++ [.txClosed] } }) ∧
    (s.tx.mode = .opened →
      c.extractLsb' 61 3 = 0b000#3 ∨ c.extractLsb' 61 3 = 0b001#3 ∨ c.extractLsb' 61 3 = 0b010#3 ∨
        c.extractLsb' 61 3 = 0b011#3 ∨ c.extractLsb' 61 3 = 0b100#3 →
      exec (.send c) s = .next { s with tx := { s.tx with outcomes := s.tx.outcomes ++ [.badCommand] } })

/-- R192, R247 (how many bytes the sink took before it fell silent is log entry 6): with a sink that never answers for byte
`k`, `SEND` of a Command and `CLOSE` leave the first `k` bytes in SINK and the block in flight, and report no outcome; a
refused operation ends all the same. -/
def Obligations.SilentSinkLeavesWriteUnfinished : Prop :=
  ∀ (c : CmdWord) (s : State) (k : Fin 8) (rest : List SinkAnswer), s.tx.flight = none →
    s.tx.answers = .stalls k :: rest →
    (s.tx.mode = .opened → isCommand c = true →
      exec (.send c) s = .next { s with tx := { s.tx with
        sink := s.tx.sink ++ (commandBytes c).take k.val, flight := some ⟨c, k⟩, answers := rest } }) ∧
    (s.tx.mode = .opened →
      exec .close s = .next { s with tx := { s.tx with
        mode := .closed,
        sink := s.tx.sink ++ List.replicate k.val 0#8, flight := some ⟨sentinel, k⟩, answers := rest } }) ∧
    (s.tx.mode = .opened → isCommand c = false →
      exec (.send c) s = .next { s with tx := { s.tx with outcomes := s.tx.outcomes ++ [.badCommand] } }) ∧
    (s.tx.mode = .closed →
      exec (.send c) s = .next { s with tx := { s.tx with outcomes := s.tx.outcomes ++ [.txClosed] } } ∧
      exec .close s = .next { s with tx := { s.tx with outcomes := s.tx.outcomes ++ [.txClosed] } })

/-- R192, R247, R63 (the refusal's name is log entry 18): an endpoint whose write has not ended hangs TX alone. Whatever its
state, an operation of DEC goes on as ever, and a parameter write or an operation that answers next leaves TX as it is. -/
def Obligations.HungEndpointHangsAlone : Prop :=
  (∀ (p : Presented) (i : Instr) (rest : List Input) (s : State), s.inputs = .op p :: rest → decode p = .instr i →
    decInstr i = true → s.dec.flight = [] →
    ∃ d, step s = .next { s with dec := d, inputs := rest } ∧
      ∀ x, step { s with tx := x } = .next { s with dec := d, tx := x, inputs := rest }) ∧
  (∀ s s' : State, s.tx.flight ≠ none → step s = .next s' → resetsTx s = false →
    (∀ p rest, s.inputs ≠ .clock p :: rest) → s'.tx = s.tx)

/-- R247, R91, R92 (the refusal and its name are log entry 18): an agent is given no operation before the previous one has
ended. `ENC` has no agent that could be busy. -/
def Obligations.BusyAgentRefusesOperations : Prop :=
  ∀ (i : Instr) (s : State),
    (decInstr i = true → s.dec.flight ≠ [] → exec i s = .refused .agentBusy) ∧
    (decInstr i = false → (∀ x, i ≠ .enc x) → s.tx.flight ≠ none → exec i s = .refused .agentBusy)

/-- R172, R173, R174, R185 (that a wire word's effect is its transmission is log entry 3; the free and the silent sink are
log entries 5, 6): on an open endpoint the three Command words put their eight bytes on SINK, tag, `skip5`, `repeat`,
`pre13` and `data35` in their places, as far as the sink takes them, with and without an answer given beforehand. -/
def Obligations.CommandWireWordsGoToSink : Prop :=
  ∀ (k : BitVec 5) (r : BitVec 8) (p : BitVec 13) (d : BitVec 35) (s : State),
    s.tx.flight = none → s.tx.mode = .opened →
    let low : List Byte := [r, p.extractLsb' 5 8, p.extractLsb' 0 5 ++ (d.extractLsb' 32 3 : BitVec 3),
      d.extractLsb' 24 8, d.extractLsb' 16 8, d.extractLsb' 8 8, d.extractLsb' 0 8]
    let put : Byte → Nat → Tx := fun b n => { s.tx with sink := s.tx.sink ++ (b :: low).take n }
    (∀ (n : Fin 9) rest, s.tx.answers = .takes n :: rest →
      let after : Byte → State := fun b => { s with tx := { put b n.val with
        outcomes := s.tx.outcomes ++ [sinkOutcome n], answers := rest } }
      exec (.cmdPreamble k r p d) s = .next (after (0b110#3 ++ k)) ∧
      exec (.cmdData k r p d) s = .next (after (0b101#3 ++ k)) ∧
      exec (.cmdAll k r p d) s = .next (after (0b111#3 ++ k))) ∧
    (s.tx.answers = [] → ∃ n : Fin 9,
      let after : Byte → State := fun b => { s with tx := { put b n.val with
        outcomes := s.tx.outcomes ++ [sinkOutcome n], draws := s.tx.draws + 1 } }
      exec (.cmdPreamble k r p d) s = .next (after (0b110#3 ++ k)) ∧
      exec (.cmdData k r p d) s = .next (after (0b101#3 ++ k)) ∧
      exec (.cmdAll k r p d) s = .next (after (0b111#3 ++ k))) ∧
    (∀ (n : Fin 8) rest, s.tx.answers = .stalls n :: rest →
      let after : BitVec 3 → State := fun tag => { s with tx := { put (tag ++ k) n.val with
        flight := some ⟨tag ++ k ++ r ++ p ++ d, n⟩, answers := rest } }
      exec (.cmdPreamble k r p d) s = .next (after 0b110#3) ∧
      exec (.cmdData k r p d) s = .next (after 0b101#3) ∧
      exec (.cmdAll k r p d) s = .next (after 0b111#3))

/-- R175, R188 (log entries 3, 5, 6): the sentinel's word closes the endpoint with eight zero bytes, as far as the sink takes
them, with and without an answer given beforehand, and is refused like `CLOSE`; the three Command words are refused like
`SEND` once closed. -/
def Obligations.SentinelWireWordCloses : Prop :=
  (∀ s : State, s.tx.flight = none → s.tx.mode = .opened →
    let put : Nat → Tx := fun n => { s.tx with mode := .closed, sink := s.tx.sink ++ List.replicate n 0#8 }
    (∀ (n : Fin 9) rest, s.tx.answers = .takes n :: rest →
      exec .cmdEnd s = .next { s with tx := { put n.val with
        outcomes := s.tx.outcomes ++ [sinkOutcome n], answers := rest } }) ∧
    (s.tx.answers = [] → ∃ n : Fin 9,
      exec .cmdEnd s = .next { s with tx := { put n.val with
        outcomes := s.tx.outcomes ++ [sinkOutcome n], draws := s.tx.draws + 1 } }) ∧
    (∀ (n : Fin 8) rest, s.tx.answers = .stalls n :: rest →
      exec .cmdEnd s = .next { s with tx := { put n.val with
        flight := some ⟨sentinel, n⟩, answers := rest } })) ∧
  (∀ (k : BitVec 5) (r : BitVec 8) (p : BitVec 13) (d : BitVec 35) (s : State) (i : Instr),
    s.tx.flight = none → s.tx.mode = .closed →
    i = .cmdEnd ∨ i = .cmdPreamble k r p d ∨ i = .cmdData k r p d ∨ i = .cmdAll k r p d →
    exec i s = .next { s with tx := { s.tx with outcomes := s.tx.outcomes ++ [.txClosed] } })

/-- R20, R63: no operation reads or writes an element of the other agent. A DEC operation changes DEC only and does the same
whatever TX is; an operation of TX leaves DEC as it is and does the same whatever DEC is. -/
def Obligations.AgentsShareNoState : Prop :=
  ∀ (i : Instr) (s s' : State), exec i s = .next s' →
    s'.inputs = s.inputs ∧ s'.out = s.out ∧
    (decInstr i = true → s'.tx = s.tx ∧ s'.enc = s.enc ∧
      ∀ x e, exec i { s with tx := x, enc := e } = .next { s' with tx := x, enc := e }) ∧
    (decInstr i = false → s'.dec = s.dec ∧ ∀ d, exec i { s with dec := d } = .next { s' with dec := d })

/-- R63 (decision D21, the spec's own): operations of the two agents commute. -/
def Obligations.AgentsCommute : Prop :=
  ∀ (i j : Instr) (s : State), decInstr i = true → decInstr j = false → runOps [i, j] s = runOps [j, i] s

/-- R76, R89, R90, R92 (port codes are decisions D1, D11): decoding an encoded instruction gives it back, at every operand
value. -/
def Obligations.DecodeOfEncode : Prop :=
  ∀ i : Instr, decode (encode i) = .instr i

/-- R76, R82, R84: a wire word that decodes is the encoding of what it decodes to, and exactly the sentinel and the
Commands decode. -/
def Obligations.WireWordsHaveOneReading : Prop :=
  (∀ (w : CmdWord) (i : Instr), decode (.wire w) = .instr i → encode i = .wire w) ∧
  (∀ w : CmdWord, decode (.wire w) = .reject .reservedTag ↔ w ≠ sentinel ∧ isCommand w = false)

/-- A step runs the decoded operation (log entry 1): with an operation presented first, step is exec of it with that
presentation taken off, whatever the two agents are doing. -/
def Obligations.StepRunsThePresentedOperation : Prop :=
  ∀ (p : Presented) (i : Instr) (rest : List Input) (s : State), s.inputs = .op p :: rest →
    decode p = .instr i → step s = exec i { s with inputs := rest }

/-- R90, R92, R223 (ports are decision D1): with nothing presented, or an idle or reserved selector, the agents hold their
state. -/
def Obligations.IdleSelectionsChangeNothing : Prop :=
  (∀ s : State, s.inputs = [] → step s = .next s) ∧
  (∀ (op : BitVec 3) (bit : BitVec 1) (byte : Byte) (rest : List Input) (s : State),
    op = 0b000#3 ∨ op = 0b101#3 ∨ op = 0b110#3 ∨ op = 0b111#3 → s.inputs = .op (.dec op bit byte) :: rest →
    step s = .next { s with inputs := rest }) ∧
  (∀ (op : BitVec 2) (cmd : CmdWord) (rest : List Input) (s : State), op = 0b00#2 ∨ op = 0b11#2 →
    s.inputs = .op (.tx op cmd) :: rest → step s = .next { s with inputs := rest })

/-- R89, R84, R93 (what is recorded for `parts = 0b00` is log entry 20, the wire word's way to `SEND` log entry 3): the two
other presentations that are no operation. The encoder answers `parts = 0b00` with a word of tag `0b100`; a wire word with a
reserved tag, other than the sentinel, is refused like any operand of `SEND`. -/
def Obligations.NonOperationsGetTheirAnswer : Prop :=
  (∀ (e : EncPort) (rest : List Input) (s : State), e.parts = 0b00#2 → s.inputs = .op (.enc e) :: rest →
    step s = .next { s with inputs := rest, enc := ⟨s.enc.returned ++
      [0b100#3 ++ (e.skip.extractLsb' 0 5 : BitVec 5) ++ e.rep ++ (e.preamble.extractLsb' 0 13 : BitVec 13) ++
        (e.data.extractLsb' 0 35 : BitVec 35)]⟩ }) ∧
  (∀ (w : CmdWord) (rest : List Input) (s : State), w ≠ 0#64 →
    w.extractLsb' 61 3 = 0b000#3 ∨ w.extractLsb' 61 3 = 0b001#3 ∨ w.extractLsb' 61 3 = 0b010#3 ∨
      w.extractLsb' 61 3 = 0b011#3 ∨ w.extractLsb' 61 3 = 0b100#3 →
    s.inputs = .op (.wire w) :: rest →
    (s.tx.flight = none → s.tx.mode = .opened → step s = .next { s with inputs := rest, tx := { s.tx with
      outcomes := s.tx.outcomes ++ [.badCommand] } }) ∧
    (s.tx.flight = none → s.tx.mode = .closed → step s = .next { s with inputs := rest, tx := { s.tx with
      outcomes := s.tx.outcomes ++ [.txClosed] } }) ∧
    (s.tx.flight ≠ none → step s = .refused .agentBusy))

/-- Words written out from the table's and the spec's encodings decode to what they stand for (R90, R92, R172 to R175). -/
def Obligations.ConcreteWordsDecode : Prop :=
  decode (.dec 0b001#3 1#1 0#8) = .instr (.smp true) ∧
  decode (.dec 0b010#3 0#1 0x0F#8) = .instr (.smpb 0x0F#8) ∧
  decode (.dec 0b011#3 0#1 0#8) = .instr .eos ∧
  decode (.dec 0b100#3 0#1 0#8) = .instr .srcerr ∧
  decode (.tx 0b01#2 0xE001003B12345678#64) = .instr (.send 0xE001003B12345678#64) ∧
  decode (.tx 0b10#2 0#64) = .instr .close ∧
  decode (.enc ⟨0b11#2, 0#8, 1#8, 7#16, 0x312345678#64⟩) = .instr (.enc ⟨.all, 0#8, 1#8, 7#16, 0x312345678#64⟩) ∧
  decode (.wire 0xC71055E123456789#64) = .instr (.cmdPreamble 7#5 16#8 0x0ABC#13 0x123456789#35) ∧
  decode (.wire 0xB104AAAAAAAAAAAA#64) = .instr (.cmdData 17#5 4#8 0x1555#13 0x2AAAAAAAA#35) ∧
  decode (.wire 0xE001003B12345678#64) = .instr (.cmdAll 0#5 1#8 7#13 0x312345678#35) ∧
  decode (.wire 0#64) = .instr .cmdEnd

/-- R35, R7 (all but the two edge times are the spec's decisions D2, D3, D5, D7, D10, D15; the model's own fields are log entries
1, 5, 7): what reset leaves, and that a finite implementation differs in its time width alone, 64 bits by default. -/
def Obligations.ResetLeavesTheTable : Prop :=
  let d := State.reset.dec
  d.lastRise = 0 ∧ d.lastFall = 0 ∧ d.lastLevel = false ∧ d.t = 0 ∧ d.mode = .run ∧ d.grpCnt = 0 ∧ d.ovf = false ∧
  State.reset.tx.mode = .opened ∧
  d.params = ⟨100, 90, 110, 10, 29, 40, 79, 4⟩ ∧
  d.emitted = [] ∧ State.reset.tx.sink = [] ∧
  State.resetFinite.dec.timeWidth = some 64 ∧
  (∀ w, State.resetFinite w = { State.reset with dec := { State.reset.dec with timeWidth := some w } })

/-- R230, R231, R232 (decision D15, the spec's own; that histories are kept apart is log entry 15): the event RESET puts
each agent named to its reset values, emits no record, writes no byte, recalls nothing, and leaves the other agent. -/
def Obligations.ResetEventRecreatesAgents : Prop :=
  ∀ (dec tx : Bool) (rest : List Input) (s : State), s.inputs = .reset dec tx :: rest →
    ∃ s', step s = .next s' ∧ s'.inputs = rest ∧ s'.enc = s.enc ∧ s'.out = s.out ∧
      (dec = false → s'.dec = s.dec) ∧
      (dec = true → s'.dec = { State.reset.dec with
        timeWidth := s.dec.timeWidth, past := s.dec.past ++ [⟨s.dec.emitted, s.dec.outcomes⟩] }) ∧
      (tx = false → s'.tx = s.tx) ∧
      (tx = true → s'.tx = { State.reset.tx with
        past := s.tx.past ++ [⟨s.tx.sink, s.tx.outcomes⟩], answers := s.tx.answers, draws := s.tx.draws })

/-- R30, R31, R243 (decision D8, the spec's own; the refusals' names are log entry 8, the refusal of a value that `TW` bits
cannot hold is log entry 7): a parameter register is written only while `dec_state = Run` and `t = 0`, GROUP only with a
value from 1 to 255, a time of a finite implementation only with one below `2^TW`. -/
def Obligations.ParameterWritesOnlyAtStart : Prop :=
  ∀ (r : ParamReg) (v : Nat) (rest : List Input) (s : State), s.inputs = .setParam r v :: rest →
    (s.dec.mode = .run → s.dec.t = 0 → (r = .group → 1 ≤ v ∧ v ≤ 255) →
      (r ≠ .group → ∀ w, s.dec.timeWidth = some w → v < 2 ^ w) →
      ∃ p, step s = .next { s with dec := { s.dec with params := p }, inputs := rest } ∧
        p.tLong = (if r = .tLong then v else s.dec.params.tLong) ∧
        p.tGap = (if r = .tGap then v else s.dec.params.tGap) ∧
        p.tBitMax = (if r = .tBitMax then v else s.dec.params.tBitMax) ∧
        p.oneLo = (if r = .oneLo then v else s.dec.params.oneLo) ∧
        p.oneHi = (if r = .oneHi then v else s.dec.params.oneHi) ∧
        p.zeroLo = (if r = .zeroLo then v else s.dec.params.zeroLo) ∧
        p.zeroHi = (if r = .zeroHi then v else s.dec.params.zeroHi) ∧
        p.group = (if r = .group then v else s.dec.params.group)) ∧
    (s.dec.mode = .run → s.dec.t = 0 → r = .group → v = 0 ∨ 255 < v → step s = .refused .groupIllegal) ∧
    (s.dec.mode = .run → s.dec.t = 0 → r ≠ .group → ∀ w, s.dec.timeWidth = some w → 2 ^ w ≤ v →
      step s = .refused .paramTooWide) ∧
    (s.dec.mode = .done ∨ 0 < s.dec.t → step s = .refused .paramsLocked)

/-- R34, R66, R243: from the first sample of a stream to the reset that ends it, no step changes a parameter; no step ever
changes the time width. -/
def Obligations.ParametersConstantInARun : Prop :=
  ∀ s s' : State, step s = .next s' →
    s'.dec.timeWidth = s.dec.timeWidth ∧
    (resetsDec s = false → (0 < s.dec.t ∨ s.dec.mode = .done) → s'.dec.params = s.dec.params)

/-- The invariants hold at reset. -/
def Obligations.InvariantsHoldAtReset : Prop :=
  DecInv State.reset.dec ∧ StreamInv State.reset.dec ∧ SessionInv State.reset.tx

/-- R25, R27, R29, R30, R101, R104 (R25 and the strict order are the spec's own inferences, what a time too wide for its register
does is log entry 7): the invariant of the decoder is kept by every step. -/
def Obligations.StepKeepsDecoderInvariant : Prop :=
  ∀ s s' : State, DecInv s.dec → step s = .next s' → DecInv s'.dec

/-- R129, R55 (the spec's own inference): in every run the record stream stays one unbroken chain from time 0 to the latest
rising edge: each Symbol starts where the record before it ends, and a Frame Boundary fills the gap between two. -/
def Obligations.StepKeepsRecordChain : Prop :=
  ∀ s s' : State, DecInv s.dec → StreamInv s.dec → step s = .next s' → StreamInv s'.dec

/-- R193, R58 (b), R82 (the spec's own inference): every step keeps the session invariant of the endpoint. -/
def Obligations.StepKeepsSessionInvariant : Prop :=
  ∀ s s' : State, SessionInv s.tx → step s = .next s' → SessionInv s'.tx

/-- R26, R28, R190 (decisions D7, D14): a closed endpoint with nothing in flight takes no more bytes and stays closed, and a
finished decoder emits nothing and keeps its state, until the reset of that agent. -/
def Obligations.ClosedAndDoneLastUntilReset : Prop :=
  ∀ s s' : State, step s = .next s' →
    (resetsTx s = false → s.tx.mode = .closed → s.tx.flight = none →
      s'.tx.mode = .closed ∧ s'.tx.flight = none ∧ s'.tx.sink = s.tx.sink ∧ s'.tx.past = s.tx.past) ∧
    (resetsDec s = false → s.dec.mode = .done →
      { s'.dec with flight := [], outcomes := [] } = { s.dec with flight := [], outcomes := [] })

/-- R81, R82, R175, R186: only `CLOSE` (and the sentinel's own wire word, log entry 3) ever appends the eight zero bytes of
the sentinel, and only the endpoint's operations append anything. -/
def Obligations.OnlyCloseWritesSentinel : Prop :=
  ∀ (i : Instr) (s s' : State), exec i s = .next s' →
    ∃ l : List Byte, s'.tx.sink = s.tx.sink ++ l ∧ l.length ≤ 8 ∧
      (l = List.replicate 8 0#8 → i = .close ∨ i = .cmdEnd) ∧
      (decInstr i = true → l = []) ∧ ((∃ x, i = .enc x) → l = [])

/-- R205, R88 (codes are decisions D9, D16, the spec's own): the codes of outcomes and classes, and that a code tells an
outcome apart but for `k`. -/
def Obligations.StatusAndClassCodes : Prop :=
  outcomeCode .ok = 0#3 ∧ (∀ k, outcomeCode (.sinkWriteFailure k) = 1#3) ∧ outcomeCode .srcReadFailure = 2#3 ∧
  outcomeCode .txClosed = 3#3 ∧ outcomeCode .decDone = 4#3 ∧ outcomeCode .badCommand = 5#3 ∧
  outcomeCode .decTimeOverflow = 6#3 ∧
  classCode .zero = 0b00#2 ∧ classCode .one = 0b01#2 ∧ classCode .unknown = 0b10#2 ∧
  (∀ o, outcomeCode o ≠ 7#3) ∧ (∀ c, classCode c ≠ 0b11#2) ∧
  (∀ o, isRefusal o = true ↔ o = .txClosed ∨ o = .decDone ∨ o = .badCommand ∨ o = .decTimeOverflow)

/-- R90, R91 (ports are decision D1; log entries 8, 17): in the port form one clock cycle with `dec_op` of `SMP`, `EOS` or
`SRCERR` does to DEC what the operation does under the parameter values of the cycle, and an idle or reserved selection does
nothing but take those values. -/
def Obligations.PortCycleIsTheOperation : Prop :=
  ∀ (p : Pins) (s : State), p.decRst = false → s.dec.flight = [] →
    let s₀ : State := { s with dec := driveParams p s.dec }
    (p.decOp = 0b001#3 → exec (.smp (p.smpBit.getLsbD 0)) s₀ = .next { s with dec := (clockCycle p s).dec }) ∧
    (p.decOp = 0b011#3 → exec .eos s₀ = .next { s with dec := (clockCycle p s).dec }) ∧
    (p.decOp = 0b100#3 → exec .srcerr s₀ = .next { s with dec := (clockCycle p s).dec }) ∧
    (p.decOp = 0b000#3 ∨ p.decOp = 0b101#3 ∨ p.decOp = 0b110#3 ∨ p.decOp = 0b111#3 →
      (clockCycle p s).dec = driveParams p s.dec)

/-- R90, R30, R31, R231, R243 (ports are decision D1, the constancy decision D8; how driven values and the registers meet is
log entry 8, the refusal of a time that `TW` bits cannot hold log entry 7): the parameter pins. Values driven while
`dec_state = Run` and `t = 0` are taken; other values than the registers' in mid-stream, an illegal GROUP and, in a finite
implementation, a time of `2^TW` or more are refused; every other cycle runs. -/
def Obligations.PortParametersAreTakenAtStart : Prop :=
  (∀ (p : Pins) (d : Dec), p.params = none → driveParams p d = d) ∧
  (∀ (p : Pins) (q : Params) (d : Dec), p.params = some q →
    (d.mode = .run → d.t = 0 → 1 ≤ q.group → q.group ≤ 255 → timesWithin d.timeWidth q →
      driveParams p d = { d with params := q }) ∧
    (d.mode = .done ∨ 0 < d.t → driveParams p d = d)) ∧
  (∀ (p : Pins) (rest : List Input) (s : State), s.inputs = .clock p :: rest →
    (p.params = none → step s = .next (clockCycle p { s with inputs := rest })) ∧
    (∀ q, p.params = some q →
      (p.decRst = true ∨ (s.dec.mode = .run ∧ s.dec.t = 0) →
        (1 ≤ q.group ∧ q.group ≤ 255 → timesWithin s.dec.timeWidth q →
          step s = .next (clockCycle p { s with inputs := rest })) ∧
        (q.group = 0 ∨ 255 < q.group → step s = .refused .groupIllegal) ∧
        (1 ≤ q.group ∧ q.group ≤ 255 → ¬ timesWithin s.dec.timeWidth q → step s = .refused .paramTooWide)) ∧
      (p.decRst = false → s.dec.mode = .done ∨ 0 < s.dec.t →
        (q = s.dec.params → step s = .next (clockCycle p { s with inputs := rest })) ∧
        (q ≠ s.dec.params → step s = .refused .paramsLocked))))

/-- R91, R88 (ports are decisions D1, D9; that the pins are those after the edge is log entry 17): what a cycle that does not
reset DEC shows on its outputs: the record or records it emitted, the outcome of an operation that ended in it, `dec_busy`. -/
def Obligations.PortDecPinsShowTheCycle : Prop :=
  ∀ (p : Pins) (s : State), p.decRst = false →
    let d := s.dec
    let d' := (clockCycle p s).dec
    let out := (clockCycle p s).out
    ((d'.emitted = d.emitted ∧ out.sym = none ∧ out.fb = none) ∨
      (∃ y g, d'.emitted = d.emitted ++ [.symbol y g] ∧ out.sym = some (y, g) ∧ out.fb = none) ∨
      (∃ y g f, d'.emitted = d.emitted ++ [.symbol y g, .boundary f] ∧ out.sym = some (y, g) ∧ out.fb = some f)) ∧
    ((d'.outcomes = d.outcomes ∧ out.decStatus = none) ∨
      ∃ o, d'.outcomes = d.outcomes ++ [o] ∧ out.decStatus = some o) ∧
    (out.decBusy = true ↔ d'.flight ≠ [])

/-- R92, R93, R89 (ports are decisions D1, D11; that the pins are those after the edge is log entry 17, the word for
`parts = 0b00` beyond its tag log entry 20): what a cycle shows on the outputs of TX: the outcome of an operation that ended
in it, `tx_busy`, `tx_open`, the byte of the block that is offered next, and the encoder's word for any value of its inputs. -/
def Obligations.PortTxPinsShowTheCycle : Prop :=
  ∀ (p : Pins) (s : State),
    let x := s.tx
    let x' := (clockCycle p s).tx
    let out := (clockCycle p s).out
    (p.txRst = false → (x'.outcomes = x.outcomes ∧ out.txStatus = none) ∨
      ∃ o, x'.outcomes = x.outcomes ++ [o] ∧ out.txStatus = some o) ∧
    (out.txBusy = true ↔ x'.flight ≠ none) ∧
    (out.txOpen = true ↔ x'.mode = .opened) ∧
    (x'.flight = none → out.sinkByte = none) ∧
    (∀ f, x'.flight = some f → out.sinkByte = some (f.word.extractLsb' (56 - 8 * f.sent.val) 8)) ∧
    out.encCmd = some (1#1 ++ p.encIn.parts ++ (p.encIn.skip.extractLsb' 0 5 : BitVec 5) ++ p.encIn.rep ++
      (p.encIn.preamble.extractLsb' 0 13 : BitVec 13) ++ (p.encIn.data.extractLsb' 0 35 : BitVec 35))

/-- R91, R105 (ports are decision D1; log entries 8, 17, 30, 31): from a state of the decoder's invariant, the eight cycles of
an `SMPB` in the port form leave DEC as the operation does under the parameter values of its first cycle, with `dec_op` idle
meanwhile, or with anything on `dec_op` if time is a natural number and the byte is not refused; then `dec_busy` is 1 during
the first seven. -/
def Obligations.PortSmpbIsTheOperation : Prop :=
  ∀ (p : Pins) (ps : List Pins) (s : State), DecInv s.dec → ps.length = 7 → p.decRst = false →
    (∀ q ∈ ps, q.decRst = false) → p.decOp = 0b010#3 → s.dec.flight = [] →
    ((∀ q ∈ ps, q.decOp = 0b000#3) ∨ (s.dec.timeWidth = none ∧ s.dec.ovf = false ∧ s.dec.mode = .run) →
      exec (.smpb p.smpByte) { s with dec := driveParams p s.dec } =
        .next { s with dec := (clockRun (p :: ps) s).dec }) ∧
    (s.dec.timeWidth = none ∧ s.dec.ovf = false ∧ s.dec.mode = .run → ∀ n, n ≤ 7 →
      (clockRun ((p :: ps).take (n + 1)) s).out.decBusy = decide (n < 7))

/-- R92, R57, R187, R189 (ports are decision D1; log entries 17, 32): in the port form `SEND` and `CLOSE`, with waiting cycles
anywhere, leave TX as the operation does with the answer `k` that the handshake makes: `k` accepted bytes, then a failure
if `k < 8`. -/
def Obligations.PortEndpointIsTheOperation : Prop :=
  ∀ (p : Pins) (ps : List Pins) (k : Fin 9) (s : State), p.txRst = false →
    (∀ q ∈ ps, q.txRst = false ∧ q.txOp = 0b00#2) → s.tx.flight = none →
    (ps.filter fun q => q.sinkReady || q.sinkErr).map (·.sinkErr) =
      List.replicate k.val false ++ (if k.val < 8 then [true] else []) →
    (p.txOp = 0b01#2 →
      ∃ x, exec (.send p.cmdIn) { s with tx := { s.tx with answers := [.takes k] } } = .next { s with tx := x } ∧
        (clockRun (p :: ps) s).tx = { x with answers := s.tx.answers }) ∧
    (p.txOp = 0b10#2 →
      ∃ x, exec .close { s with tx := { s.tx with answers := [.takes k] } } = .next { s with tx := x } ∧
        (clockRun (p :: ps) s).tx = { x with answers := s.tx.answers })

/-- R230, R231, R232, R92 (decision D15, the spec's own; what becomes of the histories and the sink's answers is log entry
15, the pins of a single cycle and the eighth byte log entry 17, driven parameters log entries 7, 8): a reset in the port form has
priority over any operation, abandons what is in flight, keeps the bytes and records already out with the byte that the sink
takes in that very cycle, and reports no outcome. -/
def Obligations.PortResetAbandonsOperations : Prop :=
  ∀ (p : Pins) (s : State),
    let taken : List Byte := match s.tx.flight with
      | some f => if p.sinkReady = true ∧ p.sinkErr = false then [f.word.extractLsb' (56 - 8 * f.sent.val) 8] else []
      | none => []
    (p.decRst = true → ∃ driven : Params,
      (clockCycle p s).dec = { State.reset.dec with
        params := driven, timeWidth := s.dec.timeWidth,
        past := s.dec.past ++ [⟨s.dec.emitted, s.dec.outcomes⟩] } ∧
      (p.params = none → driven = defaultParams) ∧
      (∀ q, p.params = some q →
        (1 ≤ q.group ∧ q.group ≤ 255 ∧ timesWithin s.dec.timeWidth q → driven = q) ∧
        (¬ (1 ≤ q.group ∧ q.group ≤ 255 ∧ timesWithin s.dec.timeWidth q) → driven = defaultParams)) ∧
      (clockCycle p s).out.decStatus = none ∧ (clockCycle p s).out.sym = none ∧ (clockCycle p s).out.fb = none ∧
      (clockCycle p s).out.decBusy = false) ∧
    (p.txRst = true → (clockCycle p s).tx = { State.reset.tx with
        past := s.tx.past ++ [⟨s.tx.sink ++ taken, s.tx.outcomes⟩], answers := s.tx.answers, draws := s.tx.draws } ∧
      (clockCycle p s).out.txStatus = none ∧ (clockCycle p s).out.sinkByte = none ∧
      (clockCycle p s).out.txBusy = false ∧ (clockCycle p s).out.txOpen = true)

/-- R247, R243, R30, R31, R192 (that errors and refusals of the spec are next states is log entry 4; the four refusals are log
entries 7, 8 and 18, and that a silent sink is none is log entry 6): the machine never stops with a fault, and a step is
refused only where an operation is given to an agent whose operation has not ended, a parameter is changed in mid-stream,
GROUP is illegal, or a time is too wide for its register. -/
def Obligations.StepStopsOnlyAsNamed : Prop :=
  (∀ (s : State) (e : Fault), step s ≠ .fault e) ∧
  (∀ (s : State) (r : Refusal), step s = .refused r →
    (r = .agentBusy ∧ (∃ p rest, s.inputs = .op p :: rest) ∧ (s.dec.flight ≠ [] ∨ s.tx.flight ≠ none)) ∨
    (r = .paramsLocked ∧ (s.dec.mode = .done ∨ 0 < s.dec.t) ∧
      ((∃ g v rest, s.inputs = .setParam g v :: rest) ∨
        ∃ p q rest, s.inputs = .clock p :: rest ∧ p.decRst = false ∧ p.params = some q ∧ q ≠ s.dec.params)) ∨
    (r = .groupIllegal ∧
      ((∃ v rest, s.inputs = .setParam .group v :: rest ∧ (v = 0 ∨ 255 < v)) ∨
        ∃ p q rest, s.inputs = .clock p :: rest ∧ p.params = some q ∧ (q.group = 0 ∨ 255 < q.group))) ∨
    (r = .paramTooWide ∧
      ((∃ g v w rest, s.inputs = .setParam g v :: rest ∧ g ≠ .group ∧ s.dec.timeWidth = some w ∧ 2 ^ w ≤ v) ∨
        ∃ p q rest, s.inputs = .clock p :: rest ∧ p.params = some q ∧ ¬ timesWithin s.dec.timeWidth q)))
end

