-- ==== Sys2Proof/Laws/Encoding.lean ====
section
/-! SUPPORT. The Command word by its four fields: what the encoder's shifts and masks come to, and the fields and bytes of a
packed word. -/

namespace Sys2Proof.Machine

/-- The body is `preamble[12:0] ‖ data[34:0]` (30_encoding.md R76, R85). -/
theorem commandBody_eq (pre : BitVec 16) (data : BitVec 64) :
    commandBody pre data = (pre.extractLsb' 0 13 ++ data.extractLsb' 0 35 : BitVec 48) := by
  have hmask : ∀ i : Fin 64, (0x7FFFFFFFF#64).getLsbD i.val = decide (i.val < 35) := by decide
  apply BitVec.eq_of_getLsbD_eq
  intro i hi
  have hm := hmask ⟨i, by omega⟩
  simp only at hm
  simp only [commandBody, packedOperands, BitVec.getLsbD_extractLsb', BitVec.getLsbD_or, BitVec.getLsbD_and,
    BitVec.getLsbD_shiftLeft, BitVec.getLsbD_setWidth, BitVec.getLsbD_append, Nat.zero_add, hm]
  by_cases h : i < 35
  · simp [h, hi]
  · have h1 : i < 64 := by omega
    have h2 : i - 35 < 64 := by omega
    have h3 : i - 35 < 13 := by omega
    simp [h, h1, h2, h3, hi]

/-- The header byte is `tag ‖ skip[4:0]` (R77). -/
theorem headerByte_eq (tag : BitVec 3) (skip : BitVec 8) :
    headerByte tag skip = (tag ++ skip.extractLsb' 0 5 : BitVec 8) := by
  have hmask : ∀ i : Fin 8, (0x1F#8).getLsbD i.val = decide (i.val < 5) := by decide
  apply BitVec.eq_of_getLsbD_eq
  intro i hi
  have hm := hmask ⟨i, by omega⟩
  simp only at hm
  simp only [headerByte, BitVec.getLsbD_extractLsb', BitVec.getLsbD_or, BitVec.getLsbD_and,
    BitVec.getLsbD_shiftLeft, BitVec.getLsbD_setWidth, BitVec.getLsbD_append, Nat.zero_add, hm]
  by_cases h : i < 5
  · simp [h, hi]
  · have h1 : i - 5 < 8 := by omega
    simp [h, h1, hi]

/-- The encoder's word by its fields (R76). -/
theorem assembleCommand_eq (tag : BitVec 3) (skip rep : BitVec 8) (pre : BitVec 16) (data : BitVec 64) :
    assembleCommand tag skip rep pre data =
     packCommand tag (skip.extractLsb' 0 5) rep (pre.extractLsb' 0 13) (data.extractLsb' 0 35) := by
  unfold assembleCommand packCommand
  rw [headerByte_eq, commandBody_eq]
  apply BitVec.eq_of_getLsbD_eq
  intro i hi
  simp only [BitVec.getLsbD_append]
  by_cases h1 : i < 35
  · have : i < 48 := by omega
    simp [h1, this]
  · by_cases h2 : i < 48
    · have : i - 35 < 13 := by omega
      simp [h1, h2, this]
    · have a : ¬ i - 35 < 13 := by omega
      have b : i - 35 - 13 = i - 48 := by omega
      by_cases h3 : i - 48 < 8
      · simp [h1, h2, a, b, h3]
      · simp [h1, h2, a, b, h3]

theorem encWord_eq (i : SendInstr) :
    encWord i = packCommand (partsTag i.parts) (i.skip.extractLsb' 0 5) i.rep (i.preamble.extractLsb' 0 13)
      (i.data.extractLsb' 0 35) :=
  assembleCommand_eq ..

/-- The tag of a packed word. -/
theorem wordTag_packCommand (tag : BitVec 3) (k : BitVec 5) (r : BitVec 8) (p : BitVec 13) (d : BitVec 35) :
    wordTag (packCommand tag k r p d) = tag := by
  apply BitVec.eq_of_getLsbD_eq
  intro n hn
  simp only [wordTag, packCommand, BitVec.getLsbD_append, BitVec.getLsbD_extractLsb', hn]
  have h1 : ¬ (61 + n < 35) := by omega
  have h2 : ¬ (61 + n - 35 < 13) := by omega
  have h3 : ¬ (61 + n - 35 - 13 < 8) := by omega
  have h4 : ¬ (61 + n - 35 - 13 - 8 < 5) := by omega
  have h5 :  (61 + n - 35 - 13 - 8 - 5) = n := by omega
  simp only [h1, h2, h3, h4, h5]
  simp

theorem isCommand_packCommand (parts : Parts) (k : BitVec 5) (r : BitVec 8) (p : BitVec 13) (d : BitVec 35) :
    isCommand (packCommand (partsTag parts) k r p d) = true := by
  cases parts <;> simp [isCommand, wordTag_packCommand, partsTag]

/-- What `ENC` returns is a Command (R82). -/
theorem isCommand_encWord (i : SendInstr) : isCommand (encWord i) = true := by
  rw [encWord_eq]; exact isCommand_packCommand ..

/-- A word is the packing of its fields. -/
theorem packCommand_fields (w : CmdWord) : packCommand (wordTag w) (w.extractLsb' 56 5) (w.extractLsb' 48 8) (w.extractLsb' 35 13) (w.extractLsb' 0 35) = w := by
  apply BitVec.eq_of_getLsbD_eq
  intro n hn
  simp only [wordTag, packCommand, BitVec.getLsbD_append, BitVec.getLsbD_extractLsb']
  by_cases a : n < 35
  · simp [a]
  · by_cases b : n - 35 < 13
    · have : 35 + (n-35) = n := by omega
      simp [a,b, this]
    · by_cases c : n - 35 - 13 < 8
      · have : 48 + (n-35-13) = n := by omega
        simp [a,b,c, this]
      · by_cases d : n - 35 - 13 - 8 < 5
        · have : 56 + (n-35-13 - 8) = n := by omega
          simp [a,b,c,d, this]
        · have : 61 + (n-35-13 - 8 - 5) = n := by omega
          have : n-35-13 - 8 - 5 < 3 := by omega
          simp [a,b,c,d, *]

/-- The bytes of a packed word, `byte[0]` first (R76). -/
theorem commandBytes_packCommand (tag : BitVec 3) (k : BitVec 5) (r : BitVec 8) (p : BitVec 13) (d : BitVec 35) :
   commandBytes (packCommand tag k r p d) = [tag ++ k, r, p.extractLsb' 5 8, p.extractLsb' 0 5 ++ (d.extractLsb' 32 3 : BitVec 3),
      d.extractLsb' 24 8, d.extractLsb' 16 8, d.extractLsb' 8 8, d.extractLsb' 0 8] := by
  show [(packCommand tag k r p d).extractLsb' 56 8, (packCommand tag k r p d).extractLsb' 48 8,
    (packCommand tag k r p d).extractLsb' 40 8, (packCommand tag k r p d).extractLsb' 32 8,
    (packCommand tag k r p d).extractLsb' 24 8, (packCommand tag k r p d).extractLsb' 16 8,
    (packCommand tag k r p d).extractLsb' 8 8, (packCommand tag k r p d).extractLsb' 0 8] = _
  have e0 : (packCommand tag k r p d).extractLsb' 56 8 = tag ++ k := by
    apply BitVec.eq_of_getLsbD_eq; intro n hn
    simp only [packCommand, BitVec.getLsbD_append, BitVec.getLsbD_extractLsb', hn]
    have h1 : ¬ (56 + n < 35) := by omega
    have h2 : ¬ (56 + n - 35 < 13) := by omega
    have h3 : ¬ (56 + n - 35 - 13 < 8) := by omega
    have h4 :  (56 + n - 35 - 13 - 8) = n := by omega
    simp only [h1,h2,h3,h4]; simp
  have e1 : (packCommand tag k r p d).extractLsb' 48 8 = r := by
    apply BitVec.eq_of_getLsbD_eq; intro n hn
    simp only [packCommand, BitVec.getLsbD_append, BitVec.getLsbD_extractLsb', hn]
    have h1 : ¬ (48 + n < 35) := by omega
    have h2 : ¬ (48 + n - 35 < 13) := by omega
    have h4 :  (48 + n - 35 - 13) = n := by omega
    simp only [h1,h2,h4,hn]; simp
  have e2 : (packCommand tag k r p d).extractLsb' 40 8 = p.extractLsb' 5 8 := by
    apply BitVec.eq_of_getLsbD_eq; intro n hn
    simp only [packCommand, BitVec.getLsbD_append, BitVec.getLsbD_extractLsb', hn]
    have h1 : ¬ (40 + n < 35) := by omega
    have h2 : (40 + n - 35 < 13) := by omega
    have h4 :  (40 + n - 35) = 5 + n := by omega
    have h5 : 5 + n < 13 := by omega
    simp only [h1,h2,h4,hn,h5]; simp
  have e3 : (packCommand tag k r p d).extractLsb' 32 8 = p.extractLsb' 0 5 ++ (d.extractLsb' 32 3 : BitVec 3) := by
    apply BitVec.eq_of_getLsbD_eq; intro n hn
    simp only [packCommand, BitVec.getLsbD_append, BitVec.getLsbD_extractLsb', hn]
    by_cases h : n < 3
    · have h1 : (32 + n < 35) := by omega
      simp only [h1, h]; simp
    · have h1 : ¬ (32 + n < 35) := by omega
      have h2 : (32 + n - 35 < 13) := by omega
      have h4 :  (32 + n - 35) = n - 3 := by omega
      have h5 : n - 3 < 5 := by omega
      have h6 : n - 3 < 13 := by omega
      simp only [h1,h2,h4,hn,h, h5, h6]; simp
  have ed : ∀ m, m + 8 ≤ 35 → (packCommand tag k r p d).extractLsb' m 8 = d.extractLsb' m 8 := by
    intro m hm
    apply BitVec.eq_of_getLsbD_eq; intro n hn
    simp only [packCommand, BitVec.getLsbD_append, BitVec.getLsbD_extractLsb', hn]
    have h1 : (m + n < 35) := by omega
    simp [h1]
  rw [e0, e1, e2, e3, ed 24 (by omega), ed 16 (by omega), ed 8 (by omega), ed 0 (by omega)]

end Sys2Proof.Machine
end

