-- ==== Sys2Proof/Laws/State.lean ====
section
/-! SUPPORT. One lemma per field per update of the whole state, and the fields of the reset states. -/

namespace Sys2Proof.Machine

@[simp] theorem State.withDec_dec (s : State) (d : Dec) : (s.withDec d).dec = d := rfl
@[simp] theorem State.withDec_tx (s : State) (d : Dec) : (s.withDec d).tx = s.tx := rfl
@[simp] theorem State.withDec_enc (s : State) (d : Dec) : (s.withDec d).enc = s.enc := rfl
@[simp] theorem State.withDec_out (s : State) (d : Dec) : (s.withDec d).out = s.out := rfl
@[simp] theorem State.withDec_inputs (s : State) (d : Dec) : (s.withDec d).inputs = s.inputs := rfl

@[simp] theorem State.withTx_dec (s : State) (x : Tx) : (s.withTx x).dec = s.dec := rfl
@[simp] theorem State.withTx_tx (s : State) (x : Tx) : (s.withTx x).tx = x := rfl
@[simp] theorem State.withTx_enc (s : State) (x : Tx) : (s.withTx x).enc = s.enc := rfl
@[simp] theorem State.withTx_out (s : State) (x : Tx) : (s.withTx x).out = s.out := rfl
@[simp] theorem State.withTx_inputs (s : State) (x : Tx) : (s.withTx x).inputs = s.inputs := rfl

@[simp] theorem State.withInputs_dec (s : State) (l : List Input) : (s.withInputs l).dec = s.dec := rfl
@[simp] theorem State.withInputs_tx (s : State) (l : List Input) : (s.withInputs l).tx = s.tx := rfl
@[simp] theorem State.withInputs_enc (s : State) (l : List Input) : (s.withInputs l).enc = s.enc := rfl
@[simp] theorem State.withInputs_out (s : State) (l : List Input) : (s.withInputs l).out = s.out := rfl
@[simp] theorem State.withInputs_inputs (s : State) (l : List Input) : (s.withInputs l).inputs = l := rfl

@[simp] theorem State.withOut_dec (s : State) (o : PortOut) : (s.withOut o).dec = s.dec := rfl
@[simp] theorem State.withOut_tx (s : State) (o : PortOut) : (s.withOut o).tx = s.tx := rfl
@[simp] theorem State.withOut_enc (s : State) (o : PortOut) : (s.withOut o).enc = s.enc := rfl
@[simp] theorem State.withOut_out (s : State) (o : PortOut) : (s.withOut o).out = o := rfl
@[simp] theorem State.withOut_inputs (s : State) (o : PortOut) : (s.withOut o).inputs = s.inputs := rfl

@[simp] theorem State.withEncResult_dec (s : State) (w : CmdWord) : (s.withEncResult w).dec = s.dec := rfl
@[simp] theorem State.withEncResult_tx (s : State) (w : CmdWord) : (s.withEncResult w).tx = s.tx := rfl
@[simp] theorem State.withEncResult_enc (s : State) (w : CmdWord) : (s.withEncResult w).enc = ⟨s.enc.returned ++ [w]⟩ := rfl
@[simp] theorem State.withEncResult_out (s : State) (w : CmdWord) : (s.withEncResult w).out = s.out := rfl
@[simp] theorem State.withEncResult_inputs (s : State) (w : CmdWord) : (s.withEncResult w).inputs = s.inputs := rfl

/-- Putting back what is there changes nothing. -/
@[simp] theorem State.withDec_self (s : State) : s.withDec s.dec = s := rfl

@[simp] theorem State.withTx_self (s : State) : s.withTx s.tx = s := rfl

@[simp] theorem State.withDec_withDec (s : State) (d d' : Dec) : (s.withDec d).withDec d' = s.withDec d' := rfl

@[simp] theorem State.withTx_withTx (s : State) (x x' : Tx) : (s.withTx x).withTx x' = s.withTx x' := rfl

/-- Updates of the two agents commute. -/
theorem State.withDec_withTx (s : State) (d : Dec) (x : Tx) :
    (s.withDec d).withTx x = (s.withTx x).withDec d := rfl

/-- The presentation of a table row stands first, and nothing else of the agents changes but a flight taken away. -/
@[simp] theorem State.withFetchWord_inputs (s : State) (nbits w : Nat) :
    (s.withFetchWord nbits w).inputs = .op (tablePresentation nbits w) :: s.inputs := rfl

@[simp] theorem State.withFetchWord_dec (s : State) (nbits w : Nat) :
    (s.withFetchWord nbits w).dec = { s.dec with flight := [] } := rfl

@[simp] theorem State.withFetchWord_tx (s : State) (nbits w : Nat) :
    (s.withFetchWord nbits w).tx = { s.tx with flight := none } := rfl

end Sys2Proof.Machine
end

