-- ==== Sys2Proof/Laws/Ops.lean ====
section
/-! SUPPORT. One lemma for each shared operation that says once what it can do; the frames of `Emit`, `RISE`, `FALL` and of
one sample; the endpoint's operations by cases. -/

namespace Sys2Proof.Machine

/-! ### What refuses a DEC operation, and the time index -/

theorem decRefusal_ovf {d : Dec} (h : d.ovf = true) : decRefusal d = some .decTimeOverflow := by
  simp [decRefusal, h]

theorem decRefusal_done {d : Dec} (h : d.ovf = false) (hm : d.mode = .done) : decRefusal d = some .decDone := by
  simp [decRefusal, h, hm]

theorem decRefusal_run {d : Dec} (h : d.ovf = false) (hm : d.mode = .run) : decRefusal d = none := by
  simp [decRefusal, h, hm]

/-- A DEC operation runs exactly in `Run` without overflow. -/
theorem decRefusal_eq_none {d : Dec} : decRefusal d = none ↔ d.ovf = false ∧ d.mode = .run := by
  rcases ho : d.ovf <;> rcases hm : d.mode <;> simp [decRefusal, ho, hm]

theorem decRefusal_cases (d : Dec) :
    decRefusal d = none ∨ decRefusal d = some .decTimeOverflow ∨ decRefusal d = some .decDone := by
  rcases ho : d.ovf <;> rcases hm : d.mode <;> simp [decRefusal, ho, hm]

/-- `tick` writes the time index and the overflow flag, by the rule, and nothing else. -/
theorem tick_eq (d : Dec) : tick d = { d with t := timeAfter d, ovf := ovfAfter d } := by
  unfold tick atLastTime timeAfter ovfAfter
  rcases hw : d.timeWidth with _ | w
  · rfl
  · by_cases h : d.t + 1 < 2 ^ w
    · simp [h, Nat.not_le.2 h]
    · simp [h, Nat.not_lt.1 h]

/-! ### Records -/

/-- The side-band value and the counter of a list of records, from counter `g` with block size `n`. -/
def groupsOf (n : Nat) : Nat → List Record → List Emitted × Nat
  | g, [] => ([], g)
  | g, .symbol s :: l => (.symbol s g :: (groupsOf n ((g + 1) % n) l).1, (groupsOf n ((g + 1) % n) l).2)
  | _, .boundary f :: l => (.boundary f :: (groupsOf n 0 l).1, (groupsOf n 0 l).2)

/-- `Emit` of several records appends to REC, moves the counter, and changes nothing else. -/
theorem emitAll_eq (rs : List Record) (d : Dec) :
    emitAll d rs = { d with
      emitted := d.emitted ++ (groupsOf d.params.group d.grpCnt rs).1
      grpCnt := (groupsOf d.params.group d.grpCnt rs).2 } := by
  induction rs generalizing d with
  | nil => simp [emitAll, groupsOf]
  | cons r l ih =>
    have h : emitAll d (r :: l) = emitAll (emit d r) l := rfl
    rw [h, ih]
    cases r <;> simp [emit, groupsOf]

/-- Without the side-band values the emissions are the records themselves, whatever the counter. -/
theorem groupsOf_records (n g : Nat) (rs : List Record) : (groupsOf n g rs).1.map recordOf = rs := by
  induction rs generalizing g with
  | nil => rfl
  | cons r l ih => cases r <;> simp [groupsOf, recordOf, ih]

theorem groupsOf_length (n g : Nat) (rs : List Record) : (groupsOf n g rs).1.length = rs.length := by
  have h := congrArg List.length (groupsOf_records n g rs)
  simpa using h

/-- The counter stays in its range. -/
theorem groupsOf_lt {n g : Nat} (rs : List Record) (hn : 1 ≤ n) (hg : g < n) : (groupsOf n g rs).2 < n := by
  induction rs generalizing g with
  | nil => simpa [groupsOf] using hg
  | cons r l ih =>
    cases r with
    | symbol s => exact ih (Nat.mod_lt _ hn)
    | boundary f => exact ih hn

/-- The three things a rising edge can emit: steps 2 and 3, step 4 alone, step 4 with a Frame Boundary. -/
theorem riseRecords_cases (p : Params) (lastRise lastFall t : Nat) :
    ((p.tLong ≤ lastFall - lastRise ∨ t ≤ lastFall - lastRise + p.tGap) ∧
      riseRecords p lastRise lastFall t = [.symbol ⟨lastRise, lastFall, t, .unknown⟩]) ∨
    (lastFall - lastRise < p.tLong ∧ lastFall - lastRise + p.tGap < t ∧ t < lastRise + p.tBitMax ∧
      riseRecords p lastRise lastFall t =
        [.symbol ⟨lastRise, lastFall, t, classify p (lastFall - lastRise)⟩]) ∨
    (lastFall - lastRise < p.tLong ∧ lastFall - lastRise + p.tGap < t ∧ lastRise + p.tBitMax ≤ t ∧
      riseRecords p lastRise lastFall t =
        [.symbol ⟨lastRise, lastFall, lastRise + p.tBitMax, classify p (lastFall - lastRise)⟩,
         .boundary ⟨lastRise + p.tBitMax, t⟩]) := by
  unfold riseRecords boundaryRecords
  by_cases h2 : p.tLong ≤ lastFall - lastRise
  · exact .inl ⟨.inl h2, if_pos h2⟩
  · by_cases h3 : t ≤ lastFall - lastRise + p.tGap
    · exact .inl ⟨.inr h3, by simp [h2, h3]⟩
    · by_cases h4 : lastRise + p.tBitMax ≤ t
      · exact .inr (.inr ⟨by omega, by omega, h4, by simp [h2, h3, h4]⟩)
      · refine .inr (.inl ⟨by omega, by omega, by omega, ?_⟩)
        have hm : min t (lastRise + p.tBitMax) = t := by omega
        simp [h2, h3, h4, hm]

/-! ### One sample -/

theorem takeSample_noEdge (d : Dec) :
    takeSample d.lastLevel d = { d with t := timeAfter d, ovf := ovfAfter d } := by
  simp [takeSample, edgeWork, tick_eq, timeAfter, ovfAfter]

theorem takeSample_fall {d : Dec} (h : d.lastLevel = true) :
    takeSample false d =
      { d with lastLevel := false, lastFall := d.t, t := timeAfter d, ovf := ovfAfter d } := by
  simp [takeSample, edgeWork, fall, h, tick_eq, timeAfter, ovfAfter]

theorem takeSample_rise {d : Dec} (h : d.lastLevel = false) :
    takeSample true d = { d with
      lastLevel := true
      lastRise := d.t
      t := timeAfter d
      ovf := ovfAfter d
      emitted := d.emitted ++
        (groupsOf d.params.group d.grpCnt (riseRecords d.params d.lastRise d.lastFall d.t)).1
      grpCnt := (groupsOf d.params.group d.grpCnt (riseRecords d.params d.lastRise d.lastFall d.t)).2 } := by
  simp [takeSample, edgeWork, rise, h, tick_eq, emitAll_eq, timeAfter, ovfAfter]

/-- The three things one sample can be: no edge, a falling edge, a rising edge. -/
theorem takeSample_cases (v : Bool) (d : Dec) :
    v = d.lastLevel ∨ (v = false ∧ d.lastLevel = true) ∨ (v = true ∧ d.lastLevel = false) := by
  cases v <;> cases d.lastLevel <;> simp

/-- What every sample does whatever edge it is, and what it leaves. -/
theorem takeSample_frame (v : Bool) (d : Dec) :
    (takeSample v d).lastLevel = v ∧ (takeSample v d).t = timeAfter d ∧ (takeSample v d).ovf = ovfAfter d ∧
    (takeSample v d).mode = d.mode ∧ (takeSample v d).params = d.params ∧
    (takeSample v d).timeWidth = d.timeWidth ∧ (takeSample v d).flight = d.flight ∧
    (takeSample v d).outcomes = d.outcomes ∧ (takeSample v d).past = d.past := by
  rcases takeSample_cases v d with h | ⟨h, hl⟩ | ⟨h, hl⟩
  · subst h; simp [takeSample_noEdge]
  · subst h; simp [takeSample_fall hl]
  · subst h; simp [takeSample_rise hl]

/-! ### The endpoint -/

/-- An operation of DEC answers through agent DEC, if the one before it has ended. -/
theorem runDec_eq (f : Dec → OpOutcome × Dec) {s : State} (h : s.dec.flight = []) :
    runDec f s =
      .next { s with dec := { (f s.dec).2 with outcomes := (f s.dec).2.outcomes ++ [(f s.dec).1] } } := by
  simp [runDec, h, reportDec, State.withDec]

theorem runDec_busy (f : Dec → OpOutcome × Dec) {s : State} (h : s.dec.flight ≠ []) :
    runDec f s = .refused .agentBusy := by
  unfold runDec
  split
  · rfl
  · contradiction

/-- If a DEC operation answers a next state, DEC had nothing in flight and only DEC changed. -/
theorem runDec_inv {f : Dec → OpOutcome × Dec} {s s' : State} (h : runDec f s = .next s') :
    s.dec.flight = [] ∧ s' = { s with dec := reportDec (f s.dec) } := by
  rcases hf : s.dec.flight with _ | ⟨v, vs⟩ <;> simp [runDec, hf] at h
  exact ⟨rfl, h.symm⟩

theorem runTx_eq (f : Tx → Tx) {s : State} (h : s.tx.flight = none) : runTx f s = .next { s with tx := f s.tx } := by
  simp [runTx, h, State.withTx]

theorem runTx_busy (f : Tx → Tx) {s : State} (h : s.tx.flight ≠ none) : runTx f s = .refused .agentBusy := by
  unfold runTx
  split
  · rfl
  · contradiction

/-- If an endpoint operation answers a next state, TX had nothing in flight and only TX changed. -/
theorem runTx_inv {f : Tx → Tx} {s s' : State} (h : runTx f s = .next s') :
    s.tx.flight = none ∧ s' = { s with tx := f s.tx } := by
  rcases hf : s.tx.flight with _ | b <;> simp [runTx, hf] at h
  exact ⟨rfl, h.symm⟩

/-- A write with an answer given beforehand. -/
theorem writeBlock_takes {w : CmdWord} {x : Tx} {k : Fin 9} {rest : List SinkAnswer}
    (h : x.answers = .takes k :: rest) : writeBlock w x = { x with
      sink := x.sink ++ (commandBytes w).take k.val
      outcomes := x.outcomes ++ [sinkOutcome k]
      answers := rest } := by
  simp [writeBlock, nextAnswer, h, reportTx]

/-- A write whose answer is a free draw: the same one whatever the block. -/
theorem writeBlock_free {x : Tx} (h : x.answers = []) :
    ∃ k : Fin 9, ∀ w : CmdWord, writeBlock w x = { x with
      sink := x.sink ++ (commandBytes w).take k.val
      outcomes := x.outcomes ++ [sinkOutcome k]
      draws := x.draws + 1 } :=
  ⟨Config.freeSinkAnswer x.draws, fun w => by simp [writeBlock, nextAnswer, h, reportTx]⟩

/-- A write to a sink that never answers stays in flight. -/
theorem writeBlock_stalls {w : CmdWord} {x : Tx} {k : Fin 8} {rest : List SinkAnswer}
    (h : x.answers = .stalls k :: rest) : writeBlock w x = { x with
      sink := x.sink ++ (commandBytes w).take k.val
      flight := some ⟨w, k⟩
      answers := rest } := by
  simp [writeBlock, nextAnswer, h]

/-- What a write can do to an endpoint with nothing in flight: end with the outcome of `k`, or stay in flight. -/
theorem writeBlock_cases (w : CmdWord) (x : Tx) :
    (writeBlock w x).mode = x.mode ∧ (writeBlock w x).past = x.past ∧
    ((∃ k : Fin 9, (writeBlock w x).sink = x.sink ++ (commandBytes w).take k.val ∧
        (writeBlock w x).outcomes = x.outcomes ++ [sinkOutcome k] ∧ (writeBlock w x).flight = x.flight) ∨
      ∃ k : Fin 8, (writeBlock w x).sink = x.sink ++ (commandBytes w).take k.val ∧
        (writeBlock w x).outcomes = x.outcomes ∧ (writeBlock w x).flight = some ⟨w, k⟩) := by
  rcases ha : x.answers with _ | ⟨a, rest⟩
  · obtain ⟨k, hk⟩ := writeBlock_free ha
    rw [hk w]; exact ⟨rfl, rfl, .inl ⟨k, rfl, rfl, rfl⟩⟩
  · cases a with
    | takes k => rw [writeBlock_takes ha]; exact ⟨rfl, rfl, .inl ⟨k, rfl, rfl, rfl⟩⟩
    | stalls k => rw [writeBlock_stalls ha]; exact ⟨rfl, rfl, .inr ⟨k, rfl, rfl, rfl⟩⟩

/-- `SEND` is refused closed, refused on a word that is no Command, or writes the word. -/
theorem sendOp_cases (c : CmdWord) (x : Tx) :
    (x.mode = .closed ∧ sendOp c x = { x with outcomes := x.outcomes ++ [.txClosed] }) ∨
    (x.mode = .opened ∧ isCommand c = false ∧ sendOp c x = { x with outcomes := x.outcomes ++ [.badCommand] }) ∨
    (x.mode = .opened ∧ isCommand c = true ∧ sendOp c x = writeBlock c x) := by
  rcases hm : x.mode <;> rcases hc : isCommand c <;> simp [sendOp, hm, hc, reportTx]

/-- `CLOSE` is refused closed, or closes and writes the sentinel. -/
theorem closeOp_cases (x : Tx) :
    (x.mode = .closed ∧ closeOp x = { x with outcomes := x.outcomes ++ [.txClosed] }) ∨
    (x.mode = .opened ∧ closeOp x = writeBlock sentinel { x with mode := .closed }) := by
  rcases hm : x.mode <;> simp [closeOp, hm, reportTx]

theorem sendOp_open {c : CmdWord} {x : Tx} (h : x.mode = .opened) (hc : isCommand c = true) :
    sendOp c x = writeBlock c x := by
  simp [sendOp, h, hc]

theorem closeOp_open {x : Tx} (h : x.mode = .opened) :
    closeOp x = writeBlock sentinel { x with mode := .closed } := by
  simp [closeOp, h]

/-! ### The parameter registers and the port form -/

/-- A value fits where it is below `2^TW`; with natural-number time it always does. -/
theorem fitsTime_iff {timeWidth : Option Nat} {v : Nat} :
    fitsTime timeWidth v = true ↔ ∀ w, timeWidth = some w → v < 2 ^ w := by
  cases timeWidth <;> simp [fitsTime]

/-- A record fits exactly where each register's value does. -/
theorem paramsFit_iff {timeWidth : Option Nat} {p : Params} :
    paramsFit timeWidth p = true ↔ ∀ r, paramFits timeWidth r (getParam r p) = true := by
  constructor
  · intro h r
    exact List.all_eq_true.1 h r (by cases r <;> decide)
  · intro h
    exact List.all_eq_true.2 fun r _ => h r

/-- GROUP has a width of its own; every other register holds a time. -/
theorem paramFits_iff {timeWidth : Option Nat} {r : ParamReg} {v : Nat} :
    paramFits timeWidth r v = true ↔ (r ≠ .group → ∀ w, timeWidth = some w → v < 2 ^ w) := by
  cases r <;> simp [paramFits, fitsTime_iff]

/-- A record fits where its seven times are within `TW` bits. -/
theorem paramsFit_iff_timesWithin {timeWidth : Option Nat} {p : Params} :
    paramsFit timeWidth p = true ↔ timesWithin timeWidth p := by
  simp only [paramsFit_iff, paramFits_iff]
  constructor
  · intro h w hw
    exact ⟨h .tLong (by decide) w hw, h .tGap (by decide) w hw, h .tBitMax (by decide) w hw, h .oneLo (by decide) w hw,
      h .oneHi (by decide) w hw, h .zeroLo (by decide) w hw, h .zeroHi (by decide) w hw⟩
  · intro h r hr w hw
    obtain ⟨h0, h1, h2, h3, h4, h5, h6⟩ := h w hw
    cases r <;> first | assumption | contradiction

/-- A register written reads as the value, every other one as before. -/
theorem getParam_setParam (r g : ParamReg) (v : Nat) (p : Params) :
    getParam r (setParam g v p) = if r = g then v else getParam r p := by
  cases g <;> cases r <;> rfl

/-- Driven parameter values are taken where they may be written and are legal and fit. -/
theorem driveParams_open {p : Pins} {q : Params} {d : Dec} (hp : p.params = some q) (ho : paramsOpen d = true)
    (hq : q.wf = true) (hw : paramsFit d.timeWidth q = true) : driveParams p d = { d with params := q } := by
  simp [driveParams, hp, ho, hq, hw]

/-- Driven parameter values change the parameter registers at most, and only where they may be written. -/
theorem driveParams_cases (p : Pins) (d : Dec) :
    driveParams p d = d ∨
    ∃ q, p.params = some q ∧ paramsOpen d = true ∧ q.wf = true ∧ paramsFit d.timeWidth q = true ∧
      driveParams p d = { d with params := q } := by
  unfold driveParams
  rcases hp : p.params with _ | q
  · exact .inl rfl
  · rcases ho : paramsOpen d <;> rcases hq : q.wf <;> rcases hw : paramsFit d.timeWidth q <;> simp [hq, hw]

theorem driveParams_locked (p : Pins) {d : Dec} (h : paramsOpen d = false) : driveParams p d = d := by
  rcases driveParams_cases p d with e | ⟨q, -, ho, -, -⟩
  · exact e
  · rw [h] at ho; cases ho

/-- What a cycle's pins break, if a parameter write of them is no step. -/
theorem runClock_inv {p : Pins} {s s' : State} (h : runClock p s = .next s') :
    paramPinsRefusal p s.dec = none ∧ s' = clockCycle p s := by
  unfold runClock at h
  split at h
  · cases h
  · rename_i hr
    cases h
    exact ⟨hr, rfl⟩

/-- The byte on offer in a resetting cycle reaches SINK at most. -/
theorem acceptByte_frame (p : Pins) (x : Tx) :
    (acceptByte p x).outcomes = x.outcomes ∧ (acceptByte p x).past = x.past ∧
    (acceptByte p x).answers = x.answers ∧ (acceptByte p x).draws = x.draws := by
  unfold acceptByte
  split <;> exact ⟨rfl, rfl, rfl, rfl⟩

@[simp] theorem commandBytes_length (w : CmdWord) : (commandBytes w).length = 8 := rfl

/-- The first `k` bytes of the sentinel are `k` zero bytes. -/
theorem commandBytes_sentinel_take (k : Fin 9) : (commandBytes sentinel).take k.val = List.replicate k.val 0#8 := by
  have h : ∀ k : Fin 9, (commandBytes sentinel).take k.val = List.replicate k.val 0#8 := by decide
  exact h k

theorem sinkOutcome_eight : sinkOutcome 8 = .ok := rfl

theorem sinkOutcome_castSucc (k : Fin 8) : sinkOutcome k.castSucc = .sinkWriteFailure k := by
  simp [sinkOutcome]

end Sys2Proof.Machine
end

