-- ==== Sys2Proof/Laws/PerInstr.lean ====
section
/-! SUPPORT. Family TableRow: what the encoder gives an instruction matches the row of spec/opcode_table.json that the
instruction stands for, by the row's match and mask on the row's own port. -/

namespace Sys2Proof.Laws

/-- The bits of a presentation that the table's rows select on: `W` for a wire word, `dec_op`, `tx_op`; the encoder has no
selector. -/
def selectorBits : Presented → Nat
  | .dec op _ _ => op.toNat
  | .tx op _ => op.toNat
  | .enc _ => 0
  | .wire w => w.toNat

/-- `match` and `mask` of the instruction's row (30_encoding.md, opcode table; `ENC` has none). -/
def rowMatchMask : Instr → Nat × Nat
  | .cmdPreamble _ _ _ _ => (0xC000000000000000, 0xE000000000000000)
  | .cmdData _ _ _ _ => (0xA000000000000000, 0xE000000000000000)
  | .cmdAll _ _ _ _ => (0xE000000000000000, 0xE000000000000000)
  | .cmdEnd => (0, 0xFFFFFFFFFFFFFFFF)
  | .smp _ => (0b001, 0b111)
  | .smpb _ => (0b010, 0b111)
  | .eos => (0b011, 0b111)
  | .srcerr => (0b100, 0b111)
  | .enc _ => (0, 0)
  | .send _ => (0b01, 0b11)
  | .close => (0b10, 0b11)

/-- The encoding matches the row. -/
def TableRow.Statement (i : Instr) : Prop := selectorBits (encode i) &&& (rowMatchMask i).2 = (rowMatchMask i).1

/-- The three high bits of a packed word are the tag. -/
theorem packCommand_tag (tag : BitVec 3) (k : BitVec 5) (r : BitVec 8) (p : BitVec 13) (d : BitVec 35) :
    packCommand tag k r p d &&& 0xE000000000000000#64 = tag.setWidth 64 <<< 61 := by
  apply BitVec.eq_of_getLsbD_eq
  intro i hi
  have hmask : (0xE000000000000000#64).getLsbD i = decide (61 ≤ i) := by
    have : ∀ i : Fin 64, (0xE000000000000000#64).getLsbD i.val = decide (61 ≤ i.val) := by decide
    exact this ⟨i, hi⟩
  rw [BitVec.getLsbD_and, hmask]
  simp only [packCommand, BitVec.getLsbD_append, BitVec.getLsbD_shiftLeft, BitVec.getLsbD_setWidth]
  by_cases h : 61 ≤ i
  · have h1 : ¬ i < 35 := by omega
    have h2 : ¬ i - 35 < 13 := by omega
    have h3 : ¬ i - 35 - 13 < 8 := by omega
    have h4 : ¬ i - 35 - 13 - 8 < 5 := by omega
    have h5 : i - 35 - 13 - 8 - 5 = i - 61 := by omega
    have h6 : ¬ i < 61 := by omega
    have h7 : i - 61 < 64 := by omega
    simp [h, h1, h2, h3, h4, h5, h6, h7, hi]
  · have h6 : i < 61 := by omega
    simp [h, h6]

theorem packCommand_row (tag : BitVec 3) (k : BitVec 5) (r : BitVec 8) (p : BitVec 13) (d : BitVec 35) :
    (packCommand tag k r p d).toNat &&& 0xE000000000000000 = (tag.setWidth 64 <<< 61 : BitVec 64).toNat := by
  have h := congrArg BitVec.toNat (packCommand_tag tag k r p d)
  simpa [BitVec.toNat_and] using h

theorem TableRow.cmdPreamble (k : BitVec 5) (r : BitVec 8) (p : BitVec 13) (d : BitVec 35) :
    TableRow.Statement (.cmdPreamble k r p d) := packCommand_row 0b110#3 k r p d

theorem TableRow.cmdData (k : BitVec 5) (r : BitVec 8) (p : BitVec 13) (d : BitVec 35) :
    TableRow.Statement (.cmdData k r p d) := packCommand_row 0b101#3 k r p d

theorem TableRow.cmdAll (k : BitVec 5) (r : BitVec 8) (p : BitVec 13) (d : BitVec 35) :
    TableRow.Statement (.cmdAll k r p d) := packCommand_row 0b111#3 k r p d

theorem TableRow.cmdEnd : TableRow.Statement .cmdEnd := by
  simp [TableRow.Statement, selectorBits, encode, rowMatchMask]

theorem TableRow.smp (v : Bool) : TableRow.Statement (.smp v) := by
  cases v <;> simp [TableRow.Statement, selectorBits, encode, rowMatchMask]

theorem TableRow.smpb (b : Byte) : TableRow.Statement (.smpb b) := by
  simp [TableRow.Statement, selectorBits, encode, rowMatchMask]

theorem TableRow.eos : TableRow.Statement .eos := by
  simp [TableRow.Statement, selectorBits, encode, rowMatchMask]

theorem TableRow.srcerr : TableRow.Statement .srcerr := by
  simp [TableRow.Statement, selectorBits, encode, rowMatchMask]

theorem TableRow.enc (i : SendInstr) : TableRow.Statement (.enc i) := by
  simp [TableRow.Statement, selectorBits, encode, rowMatchMask]

theorem TableRow.send (c : CmdWord) : TableRow.Statement (.send c) := by
  simp [TableRow.Statement, selectorBits, encode, rowMatchMask]

theorem TableRow.close : TableRow.Statement .close := by
  simp [TableRow.Statement, selectorBits, encode, rowMatchMask]

end Sys2Proof.Laws
end

