-- ==== Sys2Proof/Laws/Step.lean ====
section
/-! SUPPORT. What one step can do to each agent, said once; an invariant of an agent follows from these by its closure under
the few updates named. -/

namespace Sys2Proof.Machine

/-- An operation of DEC runs through agent DEC. -/
theorem exec_dec {i : Instr} (h : decInstr i = true) : ∃ f, ∀ s, exec i s = runDec f s := by
  cases i <;> simp only [decInstr, Bool.false_eq_true] at h
  · exact ⟨_, fun _ => rfl⟩
  · exact ⟨_, fun _ => rfl⟩
  · exact ⟨_, fun _ => rfl⟩
  · exact ⟨_, fun _ => rfl⟩

/-- Every other operation runs through agent TX or is `ENC`. -/
theorem exec_tx {i : Instr} (h : decInstr i = false) :
    (∃ f, ∀ s, exec i s = runTx f s) ∨ ∃ w, ∀ s : State, exec i s = .next (s.withEncResult w) := by
  cases i <;> simp only [decInstr, Bool.true_eq_false] at h
  case enc x => exact .inr ⟨_, fun _ => rfl⟩
  all_goals exact .inl ⟨_, fun _ => rfl⟩

/-- What `exec` can do to DEC. -/
theorem exec_dec_cases {i : Instr} {s s' : State} (h : exec i s = .next s') :
    (decInstr i = false ∧ s'.dec = s.dec) ∨ (∃ v, i = .smp v ∧ s'.dec = reportDec (smpOp v s.dec)) ∨
    (∃ b, i = .smpb b ∧ s'.dec = reportDec (smpbOp b s.dec)) ∨ (i = .eos ∧ s'.dec = reportDec (eosOp s.dec)) ∨
    (i = .srcerr ∧ s'.dec = reportDec (srcerrOp s.dec)) := by
  rcases hd : decInstr i with _ | _
  · refine .inl ⟨rfl, ?_⟩
    rcases exec_tx hd with ⟨f, hf⟩ | ⟨w, hw⟩
    · rw [hf] at h
      obtain ⟨-, rfl⟩ := runTx_inv h
      rfl
    · rw [hw] at h
      cases h
      rfl
  · right
    cases i <;> simp only [decInstr, Bool.false_eq_true] at hd
    case smp v => obtain ⟨-, rfl⟩ := runDec_inv (f := smpOp v) h; exact .inl ⟨_, rfl, rfl⟩
    case smpb b => obtain ⟨-, rfl⟩ := runDec_inv (f := smpbOp b) h; exact .inr (.inl ⟨_, rfl, rfl⟩)
    case eos => obtain ⟨-, rfl⟩ := runDec_inv (f := eosOp) h; exact .inr (.inr (.inl ⟨rfl, rfl⟩))
    case srcerr => obtain ⟨-, rfl⟩ := runDec_inv (f := srcerrOp) h; exact .inr (.inr (.inr ⟨rfl, rfl⟩))

/-- What `exec` can do to TX. -/
theorem exec_tx_cases {i : Instr} {s s' : State} (h : exec i s = .next s') :
    s'.tx = s.tx ∨ (s.tx.flight = none ∧ ((∃ c, s'.tx = sendOp c s.tx) ∨ s'.tx = closeOp s.tx)) := by
  have hsend : ∀ c, runTx (sendOp c) s = .next s' →
      s'.tx = s.tx ∨ (s.tx.flight = none ∧ ((∃ c, s'.tx = sendOp c s.tx) ∨ s'.tx = closeOp s.tx)) := by
    intro c hc
    obtain ⟨hf, rfl⟩ := runTx_inv hc
    exact .inr ⟨hf, .inl ⟨c, rfl⟩⟩
  have hclose : runTx closeOp s = .next s' →
      s'.tx = s.tx ∨ (s.tx.flight = none ∧ ((∃ c, s'.tx = sendOp c s.tx) ∨ s'.tx = closeOp s.tx)) := by
    intro hc
    obtain ⟨hf, rfl⟩ := runTx_inv hc
    exact .inr ⟨hf, .inr rfl⟩
  cases i with
  | smp v => obtain ⟨-, rfl⟩ := runDec_inv (f := smpOp v) h; exact .inl rfl
  | smpb b => obtain ⟨-, rfl⟩ := runDec_inv (f := smpbOp b) h; exact .inl rfl
  | eos => obtain ⟨-, rfl⟩ := runDec_inv (f := eosOp) h; exact .inl rfl
  | srcerr => obtain ⟨-, rfl⟩ := runDec_inv (f := srcerrOp) h; exact .inl rfl
  | enc x => cases h; exact .inl rfl
  | send c => exact hsend _ h
  | cmdPreamble k r p d => exact hsend _ h
  | cmdData k r p d => exact hsend _ h
  | cmdAll k r p d => exact hsend _ h
  | close => exact hclose h
  | cmdEnd => exact hclose h

/-- An operation stops only where its agent's operation before it has not ended. -/
theorem exec_total (i : Instr) (s : State) :
    (∃ s', exec i s = .next s') ∨ (exec i s = .refused .agentBusy ∧
      ((decInstr i = true ∧ s.dec.flight ≠ []) ∨ (decInstr i = false ∧ s.tx.flight ≠ none))) := by
  rcases hd : decInstr i with _ | _
  · rcases exec_tx hd with ⟨f, hf⟩ | ⟨w, hw⟩
    · rw [hf]
      by_cases hb : s.tx.flight = none
      · exact .inl ⟨_, runTx_eq f hb⟩
      · exact .inr ⟨runTx_busy f hb, .inr ⟨rfl, hb⟩⟩
    · exact .inl ⟨_, hw s⟩
  · obtain ⟨f, hf⟩ := exec_dec hd
    rw [hf]
    by_cases hb : s.dec.flight = []
    · exact .inl ⟨_, runDec_eq f hb⟩
    · exact .inr ⟨runDec_busy f hb, .inl ⟨rfl, hb⟩⟩

theorem flightStep_refused {v : Bool} {vs : List Bool} {d : Dec} {r : OpOutcome} (h : decRefusal d = some r) :
    flightStep (v :: vs) d = reportDec (r, { d with flight := [] }) := by
  simp [flightStep, h]

/-- The last sample of a byte in flight ends the operation. -/
theorem flightStep_last {v : Bool} {d : Dec} (h : decRefusal d = none) :
    flightStep [v] d = reportDec (.ok, { takeSample v d with flight := [] }) := by
  simp [flightStep, h]

theorem flightStep_more {v w : Bool} {ws : List Bool} {d : Dec} (h : decRefusal d = none) :
    flightStep (v :: w :: ws) d = { takeSample v d with flight := w :: ws } := by
  simp [flightStep, h]

/-- What a step can do: nothing but use up an input, an operation of the table or a refused word, a reset, a parameter
write, a clock edge. -/
theorem step_cases {s s' : State} (h : step s = .next s') :
    (s'.dec = s.dec ∧ s'.tx = s.tx) ∨
    (∃ (i : Instr) (rest : List Input), exec i (s.withInputs rest) = .next s') ∨
    (∃ dec tx rest, s.inputs = .reset dec tx :: rest ∧ s' = applyReset dec tx (s.withInputs rest)) ∨
    (∃ r v rest, s.inputs = .setParam r v :: rest ∧ paramsOpen s.dec = true ∧ paramLegal r v = true ∧
      paramFits s.dec.timeWidth r v = true ∧ s'.tx = s.tx ∧ s'.dec = { s.dec with params := setParam r v s.dec.params }) ∨
    (∃ p rest, s.inputs = .clock p :: rest ∧ s' = clockCycle p (s.withInputs rest)) := by
  unfold step at h
  rcases hi : s.inputs with _ | ⟨x, rest⟩
  · rw [hi] at h
    cases h
    exact .inl ⟨rfl, rfl⟩
  · rw [hi] at h
    cases x with
    | reset dec tx => cases h; exact .inr (.inr (.inl ⟨dec, tx, rest, rfl, rfl⟩))
    | clock p => exact .inr (.inr (.inr (.inr ⟨p, rest, rfl, (runClock_inv h).2⟩)))
    | setParam r v =>
      simp only [runInput, writeParam] at h
      split at h
      · rename_i ho
        split at h
        · rename_i hl
          split at h
          · rename_i hw
            cases h
            exact .inr (.inr (.inr (.inl ⟨r, v, rest, rfl, ho, hl, hw, rfl, rfl⟩)))
          · cases h
        · cases h
      · cases h
    | op p =>
      simp only [runInput, present] at h
      split at h
      · exact .inr (.inl ⟨_, rest, h⟩)
      · cases p with
        | dec op bit byte => cases h; exact .inl ⟨rfl, rfl⟩
        | tx op cmd => cases h; exact .inl ⟨rfl, rfl⟩
        | enc e => cases h; exact .inl ⟨rfl, rfl⟩
        | wire w => exact .inr (.inl ⟨.send w, rest, h⟩)

/-- What an input or a clock edge does to DEC is made of these updates: a report, `Done`, a flight, a sample that is not
refused, a reset, a parameter write, driven parameter values. A property closed under them is kept by every step. -/
theorem step_keeps_dec (P : Dec → Prop)
    (hreport : ∀ (d : Dec) (l : List OpOutcome), P d → P { d with outcomes := l })
    (hdone : ∀ d : Dec, P d → P { d with mode := .done })
    (hflight : ∀ (d : Dec) (l : List Bool), P d → P { d with flight := l })
    (hsample : ∀ (v : Bool) (d : Dec), decRefusal d = none → P d → P (takeSample v d))
    (hreset : ∀ d : Dec, P d → P (resetDec d))
    (hparam : ∀ (r : ParamReg) (v : Nat) (d : Dec), paramsOpen d = true → paramLegal r v = true →
      paramFits d.timeWidth r v = true → P d →
      P { d with params := setParam r v d.params })
    (hdrive : ∀ (q : Params) (d : Dec), paramsOpen d = true → q.wf = true → paramsFit d.timeWidth q = true →
      P d → P { d with params := q })
    {s s' : State} (h : P s.dec) (hs : step s = .next s') : P s'.dec := by
  have hrep : ∀ r : OpOutcome × Dec, P r.2 → P (reportDec r) := fun r hr => hreport _ _ hr
  have hsmp : ∀ (v : Bool) (d : Dec), P d → P (smpOp v d).2 := by
    intro v d hd
    unfold smpOp
    rcases hr : decRefusal d with _ | r
    · exact hsample v d hr hd
    · exact hd
  have hseq : ∀ (vs : List Bool) (d : Dec), P d → P (smpSeq vs d).2 := by
    intro vs
    induction vs with
    | nil => exact fun d hd => hd
    | cons v vs ih =>
      intro d hd
      unfold smpSeq
      rcases hr : decRefusal d with _ | r
      · exact ih _ (hsample v d hr hd)
      · exact hd
  have hsmpb : ∀ (b : Byte) (d : Dec), P d → P (smpbOp b d).2 := by
    intro b d hd
    unfold smpbOp
    rcases decRefusal d with _ | r
    · exact hseq _ _ hd
    · exact hd
  have heos : ∀ d : Dec, P d → P (eosOp d).2 := by
    intro d hd
    unfold eosOp
    rcases hr : decRefusal d with _ | r
    · exact hdone _ (hsample _ d hr hd)
    · exact hd
  have hsrc : ∀ d : Dec, P d → P (srcerrOp d).2 := by
    intro d hd
    unfold srcerrOp
    rcases hr : decRefusal d with _ | r
    · exact hdone _ hd
    · exact hd
  have hstep : ∀ (vs : List Bool) (d : Dec), P d → P (flightStep vs d) := by
    intro vs d hd
    cases vs with
    | nil => exact hd
    | cons v vs =>
      rcases hr : decRefusal d with _ | r
      · cases vs with
        | nil => rw [flightStep_last hr]; exact hrep _ (hflight (takeSample v d) [] (hsample v d hr hd))
        | cons w ws => rw [flightStep_more hr]; exact hflight (takeSample v d) _ (hsample v d hr hd)
      · rw [flightStep_refused hr]; exact hrep _ (hflight _ _ hd)
  have hclock : ∀ (p : Pins) (d : Dec), P d → P (clockDec p d) := by
    intro p d hd
    have hpins : ∀ d : Dec, P d → P (driveParams p d) := by
      intro d hd
      rcases driveParams_cases p d with e | ⟨q, -, ho, hq, hw, e⟩ <;> rw [e]
      · exact hd
      · exact hdrive q d ho hq hw hd
    unfold clockDec
    split
    · exact hpins _ (hreset d hd)
    · replace hd := hpins d hd
      unfold advanceDec
      split
      · unfold startDec
        split
        · exact hrep _ (hsmp _ _ hd)
        · split
          · exact hstep _ _ hd
          · split
            · exact hrep _ (heos _ hd)
            · split
              · exact hrep _ (hsrc _ hd)
              · exact hd
      · exact hstep _ _ hd
  rcases step_cases hs with ⟨k, -⟩ | ⟨i, rest, k⟩ | ⟨dec, tx, rest, -, rfl⟩ | ⟨r, v, rest, -, ho, hl, hw, -, k⟩ |
      ⟨p, rest, -, rfl⟩
  · rw [k]; exact h
  · rcases exec_dec_cases k with ⟨-, e⟩ | ⟨v, -, e⟩ | ⟨b, -, e⟩ | ⟨-, e⟩ | ⟨-, e⟩ <;> rw [e]
    · exact h
    · exact hrep _ (hsmp _ _ h)
    · exact hrep _ (hsmpb _ _ h)
    · exact hrep _ (heos _ h)
    · exact hrep _ (hsrc _ h)
  · cases dec
    · exact h
    · exact hreset _ h
  · rw [k]; exact hparam r v _ ho hl hw h
  · exact hclock p _ h

end Sys2Proof.Machine
end

