-- ==== Sys2Proof/Tests/Slice0.lean ====
section
/-! SUPPORT. The model's own tests: ill-formed terms that the checks refuse, words written out from the spec's encodings,
single steps whose results stand in spec/95_test_vectors.md (the vector is named in each docstring), and for every statement
with hypotheses a state and operands that meet them. -/

namespace Sys2Proof.Tests

open Sys2Proof Sys2Proof.Machine

/-! ### Helpers -/

/-- DEC after reset but for its level, edge times, time and counter. -/
def decAt (level : Bool) (rise fall t grp : Nat) : Dec :=
  { Dec.reset none with lastLevel := level, lastRise := rise, lastFall := fall, t := t, grpCnt := grp }

/-- TX in a state, with the sink's coming answers. -/
def txWith (m : TxMode) (answers : List SinkAnswer) : Tx := { Tx.reset with mode := m, answers := answers }

def onDec (d : Dec) : State := { State.reset with dec := d }

def onTx (x : Tx) : State := { State.reset with tx := x }

def presenting (s : State) (i : Input) : State := { s with inputs := [i] }

def decOf : Host.Outcome State Fault Refusal → Option Dec
  | .next s => some s.dec
  | .fault _ => none
  | .refused _ => none

def txOf : Host.Outcome State Fault Refusal → Option Tx
  | .next s => some s.tx
  | .fault _ => none
  | .refused _ => none

def encOf : Host.Outcome State Fault Refusal → Option (List CmdWord)
  | .next s => some s.enc.returned
  | .fault _ => none
  | .refused _ => none

def refusalOf : Host.Outcome State Fault Refusal → Option Refusal
  | .next _ => none
  | .fault _ => none
  | .refused r => some r

/-- The records and outcomes of a result. -/
def seen (o : Host.Outcome State Fault Refusal) : Option (List Emitted × List OpOutcome) :=
  (decOf o).map fun d => (d.emitted, d.outcomes)

/-- `t`, `last_level`, `last_rise`, `last_fall`, `grp_cnt` of a result, in the order of the vectors' "end state". -/
def endState (o : Host.Outcome State Fault Refusal) : Option (Nat × Bool × Nat × Nat × Nat) :=
  (decOf o).map fun d => (d.t, d.lastLevel, d.lastRise, d.lastFall, d.grpCnt)

/-- The sink, the mode and the outcomes of a result. -/
def sent (o : Host.Outcome State Fault Refusal) : Option (List Byte × TxMode × List OpOutcome) :=
  (txOf o).map fun x => (x.sink, x.mode, x.outcomes)

def pins : Pins where
  params := none
  decRst := false
  txRst := false
  decOp := 0#3
  smpBit := 0#1
  smpByte := 0#8
  encIn := ⟨0#2, 0#8, 0#8, 0#16, 0#64⟩
  txOp := 0#2
  cmdIn := 0#64
  sinkReady := false
  sinkErr := false

/-- The Command of the source's reference vector (S1). -/
def reference : CmdWord := 0xE001003B12345678#64

/-! ### Well-formedness: each check refuses an ill-formed term -/

/-- The sentinel is no operand of `SEND` (T8). -/
theorem test_wf_refuses_sentinel : Instr.wf (.send 0#64) = false := by decide

/-- A reserved tag is no operand of `SEND` (T7). -/
theorem test_wf_refuses_reserved_tag : Instr.wf (.send 0x6001003B12345678#64) = false := by decide

theorem test_wf_takes_command : Instr.wf (.send reference) = true := by decide

/-- `GROUP = 0` (R31) and a GROUP beyond 8 bits (R30). -/
theorem test_wf_refuses_group :
    Params.wf { defaultParams with group := 0 } = false ∧ Params.wf { defaultParams with group := 256 } = false ∧
    Params.wf { defaultParams with group := 1 } = true ∧ Params.wf { defaultParams with group := 255 } = true := by decide

/-! ### Decoding: words written out bit by bit from the spec's encodings -/

/-- R172, E22: tag 110, skip 00111, repeat 00010000, preamble 0101010111100, data 35 bits. -/
theorem test_decode_cmd_preamble :
    decode (.wire 0b1100011100010000010101011110000100100011010001010110011110001001#64) =
      .instr (.cmdPreamble 0b00111#5 0b00010000#8 0b0101010111100#13 0b00100100011010001010110011110001001#35) := by
  decide

/-- R173, E23: tag 101, skip 10001, repeat 00000100, preamble 1010101010101, data 010…10. -/
theorem test_decode_cmd_data :
    decode (.wire 0b1011000100000100101010101010101010101010101010101010101010101010#64) =
      .instr (.cmdData 0b10001#5 0b00000100#8 0b1010101010101#13 0b01010101010101010101010101010101010#35) := by
  decide

/-- R174, E1: tag 111, skip 0, repeat 1, preamble 7, data 0x312345678. -/
theorem test_decode_cmd_all :
    decode (.wire 0b1110000000000001000000000011101100010010001101000101011001111000#64) =
      .instr (.cmdAll 0b00000#5 0b00000001#8 0b0000000000111#13 0b01100010010001101000101011001111000#35) := by
  decide

/-- R175. -/
theorem test_decode_cmd_end :
    decode (.wire 0b0000000000000000000000000000000000000000000000000000000000000000#64) = .instr .cmdEnd := by decide

/-- R84: one bit beside the sentinel, and the tag `0b100`. -/
theorem test_decode_refuses_reserved_tags :
    decode (.wire 1#64) = .reject .reservedTag ∧ decode (.wire 0x8000000000000000#64) = .reject .reservedTag ∧
    decode (.wire 0x7FFFFFFFFFFFFFFF#64) = .reject .reservedTag := by decide

/-- R90, every value of `dec_op`. -/
theorem test_decode_dec :
    decode (.dec 0b000#3 1#1 0xFF#8) = .reject .decIdle ∧
    decode (.dec 0b001#3 1#1 0#8) = .instr (.smp true) ∧ decode (.dec 0b001#3 0#1 0xFF#8) = .instr (.smp false) ∧
    decode (.dec 0b010#3 1#1 0b00001111#8) = .instr (.smpb 0x0F#8) ∧
    decode (.dec 0b011#3 0#1 0#8) = .instr .eos ∧ decode (.dec 0b100#3 0#1 0#8) = .instr .srcerr ∧
    decode (.dec 0b101#3 0#1 0#8) = .reject .decReserved ∧ decode (.dec 0b110#3 0#1 0#8) = .reject .decReserved ∧
    decode (.dec 0b111#3 0#1 0#8) = .reject .decReserved := by decide

/-- R92, every value of `tx_op`. -/
theorem test_decode_tx :
    decode (.tx 0b00#2 reference) = .reject .txIdle ∧ decode (.tx 0b01#2 reference) = .instr (.send reference) ∧
    decode (.tx 0b10#2 reference) = .instr .close ∧ decode (.tx 0b11#2 reference) = .reject .txReserved := by decide

/-- R89, every value of `parts`. -/
theorem test_decode_enc :
    decode (.enc ⟨0b10#2, 7#8, 16#8, 0x0ABC#16, 0x123456789#64⟩) =
      .instr (.enc ⟨.preamble, 7#8, 16#8, 0x0ABC#16, 0x123456789#64⟩) ∧
    decode (.enc ⟨0b01#2, 17#8, 4#8, 0x1555#16, 0x2AAAAAAAA#64⟩) =
      .instr (.enc ⟨.data, 17#8, 4#8, 0x1555#16, 0x2AAAAAAAA#64⟩) ∧
    decode (.enc ⟨0b11#2, 0#8, 1#8, 7#16, 0x312345678#64⟩) = .instr (.enc ⟨.all, 0#8, 1#8, 7#16, 0x312345678#64⟩) ∧
    decode (.enc ⟨0b00#2, 0#8, 1#8, 7#16, 0x312345678#64⟩) = .reject .partsZero := by decide

/-- The rows of the opcode table by their match values. -/
theorem test_decode_table_words :
    decodeTableWord 64 0xC000000000000000 = some (.cmdPreamble 0#5 0#8 0#13 0#35) ∧
    decodeTableWord 64 0xA000000000000000 = some (.cmdData 0#5 0#8 0#13 0#35) ∧
    decodeTableWord 64 0xE000000000000000 = some (.cmdAll 0#5 0#8 0#13 0#35) ∧
    decodeTableWord 64 0 = some .cmdEnd ∧ decodeTableWord 8 0b001 = some (.smp false) ∧
    decodeTableWord 8 0b010 = some (.smpb 0#8) ∧ decodeTableWord 8 0b011 = some .eos ∧
    decodeTableWord 8 0b100 = some .srcerr ∧ decodeTableWord 2 0b01 = some (.send 0#64) ∧
    decodeTableWord 2 0b10 = some .close := by decide

/-- The decoded headers listed after vector E25. -/
theorem test_decode_headers :
    decodeHeader 0xC7#8 = some (.preamble, 7#5) ∧ decodeHeader 0xB1#8 = some (.data, 17#5) ∧
    decodeHeader 0xE0#8 = some (.all, 0#5) ∧ decodeHeader 0xDF#8 = some (.preamble, 31#5) ∧
    decodeHeader 0xBF#8 = some (.data, 31#5) ∧ decodeHeader 0xA0#8 = some (.data, 0#5) ∧
    decodeHeader 0x60#8 = none := by decide

/-! ### The host's placement of a table word -/

theorem test_fetch_smpb :
    endState (step (State.reset.withFetchWord 8 0b010)) = some (8, false, 0, 0, 0) := by decide

/-- CMD.END as the first operation after reset; the sink's answer is given so that the step is fixed. -/
theorem test_fetch_cmd_end :
    (txOf (step ((onTx (txWith .opened [.takes 8])).withFetchWord 64 0))).map (·.mode) = some .closed := by decide

/-! ### Single steps -/

/-- V20, and R100's example. -/
theorem test_smp_first_sample_high :
    seen (exec (.smp true) State.reset) = some ([.symbol ⟨0, 0, 0, .unknown⟩ 0], [.ok]) ∧
    endState (exec (.smp true) State.reset) = some (1, true, 0, 0, 1) := by decide

/-- R104's example. -/
theorem test_smp_falling_edge :
    endState (exec (.smp false) (onDec (decAt true 200 0 220 0))) = some (221, false, 200, 220, 0) := by decide

/-- V3: a pulse of 10 ticks. -/
theorem test_smp_one :
    seen (exec (.smp true) (onDec (decAt false 200 210 305 0))) = some ([.symbol ⟨200, 210, 305, .one⟩ 0], [.ok]) := by decide

/-- V13: closed exactly at the boundary. -/
theorem test_smp_zero_length_boundary :
    seen (exec (.smp true) (onDec (decAt false 200 220 310 0))) =
      some ([.symbol ⟨200, 220, 310, .one⟩ 0, .boundary ⟨310, 310⟩], [.ok]) ∧
    endState (exec (.smp true) (onDec (decAt false 200 220 310 0))) = some (311, true, 310, 220, 0) := by decide

/-- V12: one tick earlier, no boundary. -/
theorem test_smp_before_boundary :
    seen (exec (.smp true) (onDec (decAt false 200 220 309 0))) =
      some ([.symbol ⟨200, 220, 309, .one⟩ 0], [.ok]) := by decide

/-- V16: step 2 caps nothing and makes no boundary. -/
theorem test_smp_too_long :
    seen (exec (.smp true) (onDec (decAt false 200 300 350 0))) =
      some ([.symbol ⟨200, 300, 350, .unknown⟩ 0], [.ok]) := by decide

/-- V25 and V26: the last time at which step 3 fires, and one tick later. -/
theorem test_smp_step3_edge :
    seen (exec (.smp true) (onDec (decAt false 0 50 140 1))) = some ([.symbol ⟨0, 50, 140, .unknown⟩ 1], [.ok]) ∧
    seen (exec (.smp true) (onDec (decAt false 0 50 141 1))) =
      some ([.symbol ⟨0, 50, 110, .zero⟩ 1, .boundary ⟨110, 141⟩], [.ok]) := by decide

/-- P4 at time 616: the counter wraps. -/
theorem test_smp_group_wraps :
    endState (exec (.smp true) (onDec (decAt false 512 536 616 3))) = some (617, true, 616, 536, 0) := by decide

/-- R105's example: bit 7 is the earliest sample. -/
theorem test_smpb_msb_first :
    endState (exec (.smpb 0x0F#8) State.reset) = some (8, true, 4, 0, 1) ∧
    seen (exec (.smpb 0x0F#8) State.reset) = some ([.symbol ⟨0, 0, 4, .unknown⟩ 0], [.ok]) := by decide

/-- The program after V40 with `T_BITMAX = 0`, `T_GAP = 0`, `T_LONG = 2`: eight records from one byte, `end < fall`. -/
theorem test_smpb_eight_records :
    (seen (exec (.smpb 0x55#8) (onDec { decAt false 0 0 800 0 with
        params := { defaultParams with tBitMax := 0, tGap := 0, tLong := 2 } }))).map (·.1) =
      some [.symbol ⟨0, 0, 0, .unknown⟩ 0, .boundary ⟨0, 801⟩, .symbol ⟨801, 802, 801, .unknown⟩ 0,
        .boundary ⟨801, 803⟩, .symbol ⟨803, 804, 803, .unknown⟩ 0, .boundary ⟨803, 805⟩,
        .symbol ⟨805, 806, 805, .unknown⟩ 0, .boundary ⟨805, 807⟩] := by decide

/-- V28: the empty stream. -/
theorem test_eos_empty_stream :
    seen (exec .eos State.reset) = some ([.symbol ⟨0, 0, 0, .unknown⟩ 0], [.ok]) ∧
    (decOf (exec .eos State.reset)).map (·.mode) = some .done := by decide

/-- V31 from its state before `EOS`: a stream that ends high gets its falling time and no record. -/
theorem test_eos_ends_high :
    endState (exec .eos (onDec (decAt true 300 220 320 1))) = some (321, false, 300, 320, 1) ∧
    seen (exec .eos (onDec (decAt true 300 220 320 1))) = some ([], [.ok]) := by decide

/-- X3 from its state before `SRCERR`. -/
theorem test_srcerr :
    seen (exec .srcerr (onDec (decAt false 0 4 8 1))) = some ([], [.srcReadFailure]) ∧
    endState (exec .srcerr (onDec (decAt false 0 4 8 1))) = some (8, false, 0, 4, 1) := by decide

/-- X1, X2: refused in `Done`, not even `t` moves. -/
theorem test_dec_done :
    endState (exec (.smp true) (onDec { decAt false 8 0 9 1 with mode := .done })) = some (9, false, 8, 0, 1) ∧
    seen (exec .eos (onDec { decAt false 8 0 9 1 with mode := .done })) = some ([], [.decDone]) := by decide

/-- O1: the sample at the last time of `TW = 4` is processed and sets `dec_ovf`. -/
theorem test_last_time :
    endState (exec (.smp true) (onDec { decAt false 0 0 15 0 with timeWidth := some 4 })) = some (15, true, 15, 0, 1) ∧
    (decOf (exec (.smp true) (onDec { decAt false 0 0 15 0 with timeWidth := some 4 }))).map (·.ovf) = some true := by decide

/-- O2: the overflow is reported before `Done`. -/
theorem test_overflow_first :
    seen (exec .srcerr (onDec { decAt true 15 0 15 1 with timeWidth := some 4, ovf := true, mode := .done })) =
      some ([], [.decTimeOverflow]) := by decide

/-- R105: a byte that meets the last time ends with `DecTimeOverflow`, its samples up to then taken. -/
theorem test_smpb_overflow_inside :
    endState (exec (.smpb 0x0F#8) (onDec { decAt false 0 0 12 0 with timeWidth := some 4 })) =
      some (15, false, 0, 0, 0) ∧
    (seen (exec (.smpb 0x0F#8) (onDec { decAt false 0 0 12 0 with timeWidth := some 4 }))).map (·.2) =
      some [.decTimeOverflow] := by decide

/-- E1. -/
theorem test_enc_reference :
    encOf (exec (.enc ⟨.all, 0#8, 1#8, 7#16, 0x312345678#64⟩) State.reset) = some [reference] := by decide

/-- E10, E19, E21, E22, E23. -/
theorem test_enc_masks :
    encWord ⟨.data, 255#8, 2#8, 0#16, 1#64⟩ = 0xBF02000000000001#64 ∧
    encWord ⟨.all, 5#8, 3#8, 0#16, 0x800000000#64⟩ = 0xE503000000000000#64 ∧
    encWord ⟨.all, 5#8, 3#8, 1#16, 0x800000000#64⟩ = 0xE503000800000000#64 ∧
    encWord ⟨.preamble, 7#8, 16#8, 0x0ABC#16, 0x123456789#64⟩ = 0xC71055E123456789#64 ∧
    encWord ⟨.data, 17#8, 4#8, 0x1555#16, 0x2AAAAAAAA#64⟩ = 0xB104AAAAAAAAAAAA#64 := by decide

/-- R89: `parts = 0b00` gives the tag `0b100`, which `SEND` refuses. -/
theorem test_enc_parts_zero :
    wordTag (encPortWord ⟨0b00#2, 5#8, 3#8, 0#16, 0#64⟩) = 0b100#3 ∧
    isCommand (encPortWord ⟨0b00#2, 5#8, 3#8, 0#16, 0#64⟩) = false := by decide

/-- T1 and T2. -/
theorem test_send :
    sent (exec (.send reference) (onTx (txWith .opened [.takes 8]))) =
      some ([0xE0#8, 0x01#8, 0x00#8, 0x3B#8, 0x12#8, 0x34#8, 0x56#8, 0x78#8], .opened, [.ok]) ∧
    sent (exec (.send reference) (onTx (txWith .opened [.takes 3]))) =
      some ([0xE0#8, 0x01#8, 0x00#8], .opened, [.sinkWriteFailure 3]) := by decide

/-- T5, T7, T8, T9: the state is checked before the operand. -/
theorem test_send_refused :
    sent (exec (.send reference) (onTx (txWith .closed []))) = some ([], .closed, [.txClosed]) ∧
    sent (exec (.send 0x6001003B12345678#64) (onTx (txWith .opened []))) = some ([], .opened, [.badCommand]) ∧
    sent (exec (.send 0#64) (onTx (txWith .opened []))) = some ([], .opened, [.badCommand]) ∧
    sent (exec (.send 0x6001003B12345678#64) (onTx (txWith .closed []))) = some ([], .closed, [.txClosed]) := by decide

/-- T3 and T4: a failed close still closes. -/
theorem test_close :
    sent (exec .close (onTx (txWith .opened [.takes 8]))) =
      some ([0#8, 0#8, 0#8, 0#8, 0#8, 0#8, 0#8, 0#8], .closed, [.ok]) ∧
    sent (exec .close (onTx (txWith .opened [.takes 0]))) = some ([], .closed, [.sinkWriteFailure 0]) := by decide

/-- T6. -/
theorem test_close_refused : sent (exec .close (onTx (txWith .closed []))) = some ([], .closed, [.txClosed]) := by decide

/-- The wire words of P3 on SINK. -/
theorem test_wire_words :
    sent (exec (.cmdPreamble 7#5 16#8 0x0ABC#13 0x123456789#35) (onTx (txWith .opened [.takes 8]))) =
      some ([0xC7#8, 0x10#8, 0x55#8, 0xE1#8, 0x23#8, 0x45#8, 0x67#8, 0x89#8], .opened, [.ok]) ∧
    sent (exec (.cmdData 17#5 4#8 0x1555#13 0x2AAAAAAAA#35) (onTx (txWith .opened [.takes 2]))) =
      some ([0xB1#8, 0x04#8], .opened, [.sinkWriteFailure 2]) := by decide

/-- E1's word by its row, and the sentinel's. -/
theorem test_wire_words_all_end :
    sent (exec (.cmdAll 0#5 1#8 7#13 0x312345678#35) (onTx (txWith .opened [.takes 4]))) =
      some ([0xE0#8, 0x01#8, 0x00#8, 0x3B#8], .opened, [.sinkWriteFailure 4]) ∧
    sent (exec .cmdEnd (onTx (txWith .opened [.takes 1]))) = some ([0#8], .closed, [.sinkWriteFailure 1]) := by decide

/-- A line of the spec's notation with its answer: the second operation of P5, then its refused one. -/
theorem test_line_send :
    sent (runLine (sendEncoded ⟨.data, 32#8, 2#8, 0#16, 1#64⟩ 3) State.reset) =
      some ([0xA0#8, 0x02#8, 0x00#8], .opened, [.sinkWriteFailure 3]) ∧
    sent (runLine (.close 8) (onTx (txWith .closed []))) = some ([], .closed, [.txClosed]) := by decide

/-- Z1: reset of an ended stream and a closed endpoint. -/
theorem test_reset_event :
    endState (step (presenting (onDec { decAt true 620 320 621 0 with mode := .done }) (.reset true true))) =
      some (0, false, 0, 0, 0) ∧
    (txOf (step (presenting (onTx (txWith .closed [])) (.reset true true)))).map (·.mode) = some .opened := by decide

/-- R30, R31, R243. -/
theorem test_parameter_writes :
    (decOf (step (presenting State.reset (.setParam .tGap 5)))).map (·.params.tGap) = some 5 ∧
    refusalOf (step (presenting State.reset (.setParam .group 0))) = some .groupIllegal ∧
    refusalOf (step (presenting (onDec (decAt false 0 0 1 0)) (.setParam .tGap 5))) = some .paramsLocked := by decide

/-- R91: in the port form the first cycle of an `SMPB` takes bit 7 and leaves `dec_busy` 1. -/
theorem test_port_smpb_first_cycle :
    (clockCycle { pins with decOp := 0b010#3, smpByte := 0x80#8 } State.reset).dec.flight.length = 7 ∧
    (clockCycle { pins with decOp := 0b010#3, smpByte := 0x80#8 } State.reset).out.decBusy = true ∧
    (clockCycle { pins with decOp := 0b010#3, smpByte := 0x80#8 } State.reset).out.sym =
      some (⟨0, 0, 0, .unknown⟩, 0) := by decide

/-- R192, R247: behind a sink that falls silent after two bytes the block stays in flight with no outcome, a further `SEND` is
not taken, and a sample is decoded as ever. -/
theorem test_silent_sink :
    (txOf (exec (.send reference) (onTx (txWith .opened [.stalls 2])))).map (fun x => (x.sink, x.flight, x.outcomes)) =
      some ([0xE0#8, 0x01#8], some ⟨reference, 2⟩, []) ∧
    refusalOf (exec .close (onTx { txWith .opened [] with flight := some ⟨reference, 2⟩ })) = some .agentBusy ∧
    seen (step (presenting (onTx { txWith .opened [] with flight := some ⟨reference, 2⟩ })
      (.op (.dec 0b001#3 1#1 0#8)))) = some ([.symbol ⟨0, 0, 0, .unknown⟩ 0], [.ok]) := by decide

/-- R92, R232: the byte that the sink accepts in the cycle of a reset is in SINK, and no outcome is reported. -/
theorem test_port_reset_takes_byte :
    (clockCycle { pins with txRst := true, sinkReady := true }
      (onTx { txWith .opened [] with sink := [0xE0#8, 0x01#8], flight := some ⟨reference, 2⟩ })).tx.past =
        [⟨[0xE0#8, 0x01#8, 0x00#8], []⟩] ∧
    (clockCycle { pins with txRst := true, sinkReady := true, sinkErr := true }
      (onTx { txWith .opened [] with sink := [0xE0#8, 0x01#8], flight := some ⟨reference, 2⟩ })).tx.past =
        [⟨[0xE0#8, 0x01#8], []⟩] := by decide

/-- R90, R231, R243: parameter values on the pins. -/
theorem test_port_parameters :
    (decOf (step (presenting State.reset (.clock { pins with params := some { defaultParams with tGap := 5 } })))).map
      (·.params.tGap) = some 5 ∧
    (decOf (step (presenting (onDec (decAt true 0 0 9 1)) (.clock { pins with
      decRst := true, params := some { defaultParams with group := 8 } })))).map (·.params.group) = some 8 ∧
    refusalOf (step (presenting (onDec (decAt true 0 0 9 1)) (.clock { pins with
      params := some { defaultParams with tGap := 5 } }))) = some .paramsLocked := by decide

/-- R7: 64 bits unless another width is named. -/
theorem test_finite_reset :
    State.resetFinite.dec.timeWidth = some 64 ∧ (State.resetFinite 4).dec.timeWidth = some 4 := by decide

/-- R30: P0 to P6 have the bits `[TW-1:0]`; with `TW = 4` 15 is the greatest time, GROUP has its own 8 bits, and the pins are
held to the same. -/
theorem test_parameter_width :
    (decOf (step (presenting (State.resetFinite 4) (.setParam .tGap 15)))).map (·.params.tGap) = some 15 ∧
    refusalOf (step (presenting (State.resetFinite 4) (.setParam .tGap 16))) = some .paramTooWide ∧
    (decOf (step (presenting (State.resetFinite 4) (.setParam .group 16)))).map (·.params.group) = some 16 ∧
    refusalOf (step (presenting (State.resetFinite 4) (.clock { pins with
      params := some ⟨15, 15, 16, 1, 2, 3, 4, 4⟩ }))) = some .paramTooWide := by decide

/-- R92, log entry 32: a refused `SEND` of the port form ends in the cycle that accepts it. -/
theorem test_port_refused_send :
    (clockCycle { pins with txOp := 0b01#2 } State.reset).out.txStatus = some .badCommand ∧
    (clockCycle { pins with txOp := 0b01#2 } State.reset).out.txBusy = false := by decide

/-- R92: `sink_err` at byte 2 of a block is a failure with `k = 2`. -/
theorem test_port_sink_error :
    (clockCycle { pins with sinkErr := true, sinkReady := true }
      (onTx { txWith .opened [] with flight := some ⟨reference, 2⟩ })).tx.outcomes = [.sinkWriteFailure 2] ∧
    (clockCycle { pins with sinkReady := true }
      (onTx { txWith .opened [] with flight := some ⟨reference, 2⟩ })).out.sinkByte = some 0x3B#8 := by decide

/-! ### Witnesses: for each statement with hypotheses, inputs that meet them -/

/-- EncodedBytesFollowLayout at both ends of `n`, by E22. -/
theorem witness_encoded_bytes :
    (0 ≤ 5 ∧ commandByte (encWord ⟨.preamble, 7#8, 16#8, 0x0ABC#16, 0x123456789#64⟩) (2 + 0) = 0x55#8) ∧
    (5 ≤ 5 ∧ commandByte (encWord ⟨.preamble, 7#8, 16#8, 0x0ABC#16, 0x123456789#64⟩) (2 + 5) = 0x89#8) := by decide

/-- ModeTagsAreTheThree: `skip` with zero low bits (E7). -/
theorem witness_mode_tags :
    (32#8).extractLsb' 0 5 = 0#5 ∧ commandByte (encWord ⟨.data, 32#8, 2#8, 0#16, 1#64⟩) 0 = 0xA0#8 := by decide

/-- EncoderMaskingLaws: E17 and E18, E9 and E10, E11 and E12. -/
theorem witness_masking :
    (0xFFFFFFFFFFFFFFFF#64).extractLsb' 0 35 = (0x7FFFFFFFF#64).extractLsb' 0 35 ∧
    (63#8).extractLsb' 0 5 = (255#8).extractLsb' 0 5 ∧
    (0xFFFF#16).extractLsb' 0 13 = (0x1FFF#16).extractLsb' 0 13 := by decide

/-- EncoderImageIsTheCommands: the smallest Command (E3). -/
theorem witness_image : isCommand 0xA000000000000000#64 = true := by decide

/-- HeaderRoundTrip at both ends of `skip`. -/
theorem witness_header : (0#8).toNat ≤ 31 ∧ (31#8).toNat ≤ 31 ∧ ¬ (32#8).toNat ≤ 31 := by decide

/-- ClassifyFollowsWindows at the ends of the five ranges (V2 to V10). -/
theorem witness_classify :
    classify defaultParams 9 = .unknown ∧ classify defaultParams 10 = .one ∧ classify defaultParams 29 = .one ∧
    classify defaultParams 30 = .unknown ∧ classify defaultParams 39 = .unknown ∧ classify defaultParams 40 = .zero ∧
    classify defaultParams 79 = .zero ∧ classify defaultParams 80 = .unknown := by decide

/-- SmpWithoutEdgeOnlyAdvancesTime, SrcerrEndsTheDecode, EosAppendsOneTransition (low), DecodeNeverFailsOnContent:
reset. -/
theorem witness_run :
    State.reset.dec.flight = [] ∧ State.reset.dec.ovf = false ∧ State.reset.dec.mode = .run ∧ State.reset.dec.timeWidth = none ∧
    State.reset.dec.lastLevel = false := by decide

/-- DecodeNeverFailsOnContent: a stream of a sample and a byte. -/
theorem witness_content : ∀ i ∈ [Instr.smp true, Instr.smpb 0x0F#8], (∃ v, i = .smp v) ∨ ∃ b, i = .smpb b := by
  intro i hi
  rcases List.mem_cons.1 hi with rfl | hi
  · exact .inl ⟨_, rfl⟩
  · rcases List.mem_cons.1 hi with rfl | hi
    · exact .inr ⟨_, rfl⟩
    · cases hi

/-- SmpFallingEdgeRecordsTime, EosAppendsOneTransition (high). -/
theorem witness_falling :
    (decAt true 200 0 220 0).flight = [] ∧ (decAt true 200 0 220 0).ovf = false ∧ (decAt true 200 0 220 0).mode = .run ∧
    (decAt true 200 0 220 0).lastLevel = true := by decide

/-- SmpRisingEdgeEmitsBySteps, FrameBoundaryExactlyWhen, SymbolUnknownExactlyWhen: a state for each clause at the value where
clauses meet (V11 and V25 for steps 2 and 3, V12 for step 4 alone, V13 for step 4 with a boundary). -/
theorem witness_rising :
    (defaultParams.tLong ≤ 300 - 200) ∧ (140 ≤ (50 - 0) + defaultParams.tGap) ∧
    ((220 - 200 < defaultParams.tLong) ∧ (220 - 200) + defaultParams.tGap < 309 ∧ 309 < 200 + defaultParams.tBitMax) ∧
    ((220 - 200 < defaultParams.tLong) ∧ (220 - 200) + defaultParams.tGap < 310 ∧ 200 + defaultParams.tBitMax ≤ 310) ∧
    (decAt false 200 220 310 0).flight = [] ∧ (decAt false 200 220 310 0).params = defaultParams ∧ (decAt false 200 220 310 0).ovf = false ∧
    (decAt false 200 220 310 0).mode = .run ∧ (decAt false 200 220 310 0).lastLevel = false := by decide

/-- FrameBoundaryExactlyWhen: the two counter-examples' states (V16, V24). -/
theorem witness_counterexamples :
    ((decAt false 200 300 350 0).lastRise = 200 ∧ (decAt false 200 300 350 0).lastFall = 300 ∧
      (decAt false 200 300 350 0).t = 350) ∧
    ((decAt false 0 50 120 1).lastRise = 0 ∧ (decAt false 0 50 120 1).lastFall = 50 ∧
      (decAt false 0 50 120 1).t = 120) := by decide

/-- SymbolUnknownExactlyWhen: the clause for `t` from 190 on, at 190. -/
theorem witness_step3_dead :
    defaultParams.tLong + defaultParams.tGap ≤ (decAt false 91 190 190 0).t ∧
    (decAt false 91 190 190 0).lastFall - (decAt false 91 190 190 0).lastRise < defaultParams.tLong := by decide

/-- ThresholdBoundariesClassify: each duration, closed at 305 after a rise at 200 (V2 to V5, V7, V8, V11). -/
theorem witness_thresholds :
    ∀ n ∈ [9, 30, 10, 29, 40, 79, 100], (decAt false 200 (200 + n) 305 0).lastFall = (decAt false 200 (200 + n) 305 0).lastRise + n ∧
      n + 90 < (decAt false 200 (200 + n) 305 0).t := by decide

/-- DecOperationsRefused, both clauses; ClosedAndDoneLastUntilReset for DEC. -/
theorem witness_refused :
    decInstr (.smp true) = true ∧ ({ decAt true 15 0 15 1 with ovf := true } : Dec).ovf = true ∧
    ({ decAt false 8 0 9 1 with mode := .done } : Dec).ovf = false ∧
    ({ decAt false 8 0 9 1 with mode := .done } : Dec).mode = .done ∧ resetsDec State.reset = false := by decide

/-- SmpbAdvancesTimeByEight with a finite time width, at the last start that fits; PortSmpbIsTheOperation's alternatives
are met by reset. -/
theorem witness_smpb_finite : ∃ w, ({ decAt false 0 0 7 0 with timeWidth := some 4 } : Dec).timeWidth = some w ∧
    ({ decAt false 0 0 7 0 with timeWidth := some 4 } : Dec).t + 8 < 2 ^ w := ⟨4, by decide⟩

/-- LastTimeSetsOverflow: the last time, and the one before it. -/
theorem witness_last_time :
    (({ decAt false 0 0 15 0 with timeWidth := some 4 } : Dec).timeWidth = some 4 ∧ 15 + 1 = 2 ^ 4) ∧
    (({ decAt false 0 0 14 0 with timeWidth := some 4 } : Dec).timeWidth = some 4 ∧ 14 + 1 < 2 ^ 4) := by decide

/-- GroupingNeverAffectsRecords: two decoders alike but for grouping. -/
theorem witness_grouping :
    sameButGrouping (decAt false 0 0 5 0)
      { decAt false 0 0 5 2 with params := { defaultParams with group := 7 } } := ⟨rfl, rfl⟩

/-- RecordsPerOperation, AgentsShareNoState, OnlyCloseWritesSentinel: an operation that answers next. -/
theorem witness_next : ∃ s', exec (.smp true) State.reset = .next s' := ⟨_, rfl⟩

/-- SendWritesCommandBytes, all three answers; EncodedCommandReachesSink; CommandWireWordsGoToSink. -/
theorem witness_send :
    (txWith .opened [.takes 8]).flight = none ∧ (txWith .opened [.takes 8]).mode = .opened ∧ reference.extractLsb' 61 3 = 0b111#3 ∧
    (txWith .opened [.takes 8]).answers = .takes 8 :: [] ∧
    (txWith .opened [.takes 0]).answers = .takes (Fin.castSucc (0 : Fin 8)) :: [] ∧
    (txWith .opened [.takes 7]).answers = .takes (Fin.castSucc (7 : Fin 8)) :: [] ∧
    (txWith .opened []).answers = [] := by decide

/-- EndpointRefusals, SentinelWireWordCloses, ClosedAndDoneLastUntilReset: a closed endpoint, and each refused tag. -/
theorem witness_endpoint_refusals :
    (txWith .closed []).mode = .closed ∧ (txWith .closed []).flight = none ∧ resetsTx State.reset = false ∧
    (0#64 : CmdWord).extractLsb' 61 3 = 0b000#3 ∧ (0x8000000000000000#64 : CmdWord).extractLsb' 61 3 = 0b100#3 := by decide

/-- SilentSinkLeavesWriteUnfinished and the silent clauses of the wire words, at both ends of `k`. -/
theorem witness_silent :
    (txWith .opened [.stalls 0]).answers = .stalls 0 :: [] ∧ (txWith .opened [.stalls 7]).answers = .stalls 7 :: [] ∧
    (txWith .opened [.stalls 7]).flight = none ∧ (txWith .opened [.stalls 7]).mode = .opened ∧
    (txWith .closed [.stalls 7]).mode = .closed ∧ isCommand reference = true ∧ isCommand 0#64 = false := by decide

/-- A state whose endpoint hangs in the middle of a block. -/
def hanging : State := onTx { txWith .opened [] with flight := some ⟨reference, 2⟩ }

/-- HungEndpointHangsAlone, BusyAgentRefusesOperations: a hung endpoint with a DEC operation presented, and a busy decoder. -/
theorem witness_hung :
    (presenting hanging (.op (.dec 0b011#3 0#1 0#8))).tx.flight ≠ none ∧
    (presenting hanging (.op (.dec 0b011#3 0#1 0#8))).dec.flight = [] ∧
    decode (.dec 0b011#3 0#1 0#8) = .instr .eos ∧ decInstr .eos = true ∧ decInstr .close = false ∧
    resetsTx (presenting hanging (.op (.dec 0b011#3 0#1 0#8))) = false ∧
    ({ decAt true 0 0 1 1 with flight := [true] } : Dec).flight ≠ [] := by decide

/-- HungEndpointHangsAlone, second clause: the step answers next and its input is no clock edge. -/
theorem witness_hung_step :
    (∃ s', step (presenting hanging (.op (.dec 0b011#3 0#1 0#8))) = .next s') ∧
    ∀ p rest, (presenting hanging (.op (.dec 0b011#3 0#1 0#8))).inputs ≠ .clock p :: rest :=
  ⟨⟨_, rfl⟩, fun p rest h => by cases h⟩

/-- AgentsCommute. -/
theorem witness_agents : decInstr (.smpb 0x0F#8) = true ∧ decInstr .close = false := by decide

/-- NonOperationsGetTheirAnswer: `parts = 0b00`, and a reserved tag that is not the sentinel. -/
theorem witness_non_operations :
    (⟨0b00#2, 5#8, 3#8, 0#16, 0#64⟩ : EncPort).parts = 0b00#2 ∧ (1#64 : CmdWord) ≠ 0#64 ∧
    (1#64 : CmdWord).extractLsb' 61 3 = 0b000#3 ∧ (0x8000000000000000#64 : CmdWord).extractLsb' 61 3 = 0b100#3 ∧
    (presenting State.reset (.op (.wire 1#64))).inputs = .op (.wire 1#64) :: [] ∧ hanging.tx.flight ≠ none := by decide

/-- WireWordsHaveOneReading, StepRunsThePresentedOperation. -/
theorem witness_presented :
    decode (.wire 0#64) = .instr .cmdEnd ∧
    (presenting State.reset (.op (.dec 0b011#3 0#1 0#8))).inputs = .op (.dec 0b011#3 0#1 0#8) :: [] ∧
    decode (.dec 0b011#3 0#1 0#8) = .instr .eos := by decide

/-- IdleSelectionsChangeNothing. -/
theorem witness_idle :
    State.reset.inputs = [] ∧
    (presenting State.reset (.op (.dec 0b111#3 1#1 0#8))).inputs = .op (.dec 0b111#3 1#1 0#8) :: [] ∧
    (presenting State.reset (.op (.tx 0b11#2 0#64))).inputs = .op (.tx 0b11#2 0#64) :: [] := by decide

/-- ResetEventRecreatesAgents, each agent named and not named. -/
theorem witness_reset_event :
    (presenting State.reset (.reset true false)).inputs = .reset true false :: [] ∧
    (presenting State.reset (.reset false true)).inputs = .reset false true :: [] := by decide

/-- ParameterWritesOnlyAtStart: GROUP at both ends of its range and beyond, and a locked register. -/
theorem witness_parameters :
    (presenting State.reset (.setParam .group 1)).inputs = .setParam .group 1 :: [] ∧
    (presenting State.reset (.setParam .group 255)).dec.t = 0 ∧
    (presenting State.reset (.setParam .group 256)).dec.mode = .run ∧ 255 < 256 ∧ (1 ≤ 255 ∧ 255 ≤ 255) ∧
    0 < (presenting (onDec (decAt false 0 0 1 0)) (.setParam .tGap 5)).dec.t := by decide

/-- ParametersConstantInARun: a stream after its first sample. -/
theorem witness_constant :
    (∃ s', step (presenting (onDec (decAt false 0 0 1 0)) (.op (.dec 0b001#3 1#1 0#8))) = .next s') ∧
    resetsDec (presenting (onDec (decAt false 0 0 1 0)) (.op (.dec 0b001#3 1#1 0#8))) = false ∧
    0 < (decAt false 0 0 1 0).t := ⟨⟨_, rfl⟩, by decide⟩

/-- A decoder that has emitted the pair of V3's prefix and one pulse: the state of V3 before its last sample. -/
def decMid : Dec :=
  { decAt false 200 210 305 0 with emitted := [.symbol ⟨0, 0, 110, .unknown⟩ 0, .boundary ⟨110, 200⟩] }

/-- StepKeepsDecoderInvariant, StepKeepsRecordChain: the invariants hold in the middle of a stream, and a step goes on. -/
theorem witness_decoder_invariant :
    DecInv decMid ∧ StreamInv decMid ∧
    ∃ s', step (presenting (onDec decMid) (.op (.dec 0b001#3 1#1 0#8))) = .next s' := by
  refine ⟨?_, by unfold StreamInv; decide, ⟨_, rfl⟩⟩
  unfold DecInv
  refine ⟨by decide, by decide, by decide, by decide, by decide, by decide, by decide, by decide, by decide, ?_, fun r => .inr rfl⟩
  intro w hw
  cases hw

/-- StepKeepsSessionInvariant: an endpoint that has sent one Command. -/
theorem witness_session_invariant :
    SessionInv { txWith .opened [] with sink := commandBytes reference, outcomes := [.ok] } ∧
    ∃ s', step (presenting (onTx { txWith .opened [] with sink := commandBytes reference, outcomes := [.ok] })
      (.op (.tx 0b01#2 0#64))) = .next s' := by
  refine ⟨⟨?_, ?_⟩, ⟨_, rfl⟩⟩
  · intro f hf
    cases hf
  · intro _
    exact ⟨[reference], fun c hc => by rw [List.mem_singleton.1 hc]; decide, rfl⟩

/-- PortCycleIsTheOperation. -/
theorem witness_port_cycle :
    ({ pins with decOp := 0b001#3 } : Pins).decRst = false ∧ State.reset.dec.flight = [] ∧
    ({ pins with decOp := 0b011#3 } : Pins).decOp = 0b011#3 ∧ ({ pins with decOp := 0b111#3 } : Pins).decOp = 0b111#3 := by
  decide

/-- PortSmpbIsTheOperation: seven idle cycles after the one that selects. -/
theorem witness_port_smpb :
    (List.replicate 7 pins).length = 7 ∧ (∀ q ∈ List.replicate 7 pins, q.decRst = false ∧ q.decOp = 0b000#3) ∧
    ({ pins with decOp := 0b010#3, smpByte := 0x0F#8 } : Pins).decOp = 0b010#3 := by decide

/-- PortEndpointIsTheOperation: the handshakes of `k = 0`, of `k = 2` with a waiting cycle, and of `k = 8`. -/
theorem witness_port_endpoint :
    ((([{ pins with sinkErr := true }] : List Pins).filter fun q => q.sinkReady || q.sinkErr).map (·.sinkErr) =
      List.replicate 0 false ++ [true]) ∧
    ((([{ pins with sinkReady := true }, pins, { pins with sinkReady := true }, { pins with sinkErr := true }] :
      List Pins).filter fun q => q.sinkReady || q.sinkErr).map (·.sinkErr) = List.replicate 2 false ++ [true]) ∧
    (((List.replicate 8 { pins with sinkReady := true }).filter fun q => q.sinkReady || q.sinkErr).map (·.sinkErr) =
      List.replicate 8 false) := by decide

/-- PortSmpbIsTheOperation: reset meets the decoder's invariant. -/
theorem witness_port_smpb_state : DecInv State.reset.dec ∧ State.reset.dec.flight = [] := by
  unfold DecInv
  refine ⟨⟨by decide, by decide, by decide, by decide, by decide, by decide, by decide, by decide, by decide, ?_, fun r => .inr rfl⟩, rfl⟩
  intro w hw
  cases hw

/-- PortParametersAreTakenAtStart: GROUP at both ends of its range and beyond, and a cycle in mid-stream. -/
theorem witness_port_parameters :
    ({ pins with params := some { defaultParams with group := 1 } } : Pins).params =
      some { defaultParams with group := 1 } ∧
    (1 ≤ 255 ∧ 255 ≤ 255 ∧ 255 < 256) ∧ State.reset.dec.mode = .run ∧ State.reset.dec.t = 0 ∧
    0 < (decAt true 0 0 9 1).t ∧ { defaultParams with tGap := 5 } ≠ (decAt true 0 0 9 1).params := by decide

/-- ParameterWritesOnlyAtStart, PortParametersAreTakenAtStart, PortResetAbandonsOperations: times at both sides of `2^TW`. -/
theorem witness_parameter_width :
    (State.resetFinite 4).dec.timeWidth = some 4 ∧ 15 < 2 ^ 4 ∧ 2 ^ 4 ≤ 16 ∧ ParamReg.tGap ≠ .group ∧
    timesWithin none ⟨100, 90, 110, 10, 29, 40, 79, 4⟩ ∧ timesWithin (some 4) ⟨15, 15, 15, 1, 2, 3, 4, 4⟩ ∧
    ¬ timesWithin (some 4) ⟨15, 15, 16, 1, 2, 3, 4, 4⟩ := by
  simp only [← paramsFit_iff_timesWithin]
  decide

/-- PortDecPinsShowTheCycle, PortTxPinsShowTheCycle: cycles without a reset, and a block in flight. -/
theorem witness_port_pins :
    pins.decRst = false ∧ pins.txRst = false ∧ (clockCycle pins hanging).tx.flight = some ⟨reference, 2⟩ ∧
    (clockCycle pins State.reset).tx.flight = none := by decide

/-- PortResetAbandonsOperations. -/
theorem witness_port_reset :
    ({ pins with decRst := true } : Pins).decRst = true ∧ ({ pins with txRst := true } : Pins).txRst = true := by decide

/-- StepStopsOnlyAsNamed, ParameterWritesOnlyAtStart, PortParametersAreTakenAtStart: each of the four refusals happens. -/
theorem witness_refusals :
    refusalOf (step (presenting hanging (.op (.tx 0b10#2 0#64)))) = some .agentBusy ∧
    refusalOf (step (presenting (onDec (decAt true 0 0 9 1)) (.setParam .tGap 5))) = some .paramsLocked ∧
    refusalOf (step (presenting State.reset (.clock { pins with params := some { defaultParams with group := 0 } }))) =
      some .groupIllegal ∧
    refusalOf (step (presenting State.resetFinite (.setParam .tGap (2 ^ 64)))) = some .paramTooWide := by decide

end Sys2Proof.Tests
end

section
/-! The family of 00_scope.md. How a presented operation is taken (R8), and why natural-number time leaves a decode nothing to
fail on (R15, 60_exceptions.md R212): no sample leaves the states in which every sample is accepted. -/

namespace Sys2Proof.Machine

/-! ### The presented operation -/

theorem step_op {s : State} {p : Presented} {rest : List Input} (h : s.inputs = .op p :: rest) :
    step s = present p (s.withInputs rest) := by
  simp [step, h, runInput]

theorem present_instr {p : Presented} {i : Instr} (h : decode p = .instr i) (s : State) : present p s = exec i s := by
  simp [present, h]

/-- Settles O37: the step takes the presentation off, and the decoder's answer selects `exec`. -/
theorem stepRunsThePresentedOperation : Obligations.StepRunsThePresentedOperation := by
  intro p i rest s hs hp
  rw [step_op hs, present_instr hp]
  rfl

/-! ### Operations one after another -/

theorem runOps_cons_of_next {i : Instr} {s s' : State} (h : exec i s = .next s') (l : List Instr) :
    runOps (i :: l) s = runOps l s' := by
  simp [runOps, h]

theorem runOps_singleton (i : Instr) (s : State) : runOps [i] s = exec i s := by
  cases h : exec i s <;> simp [runOps, h]

/-! ### A decoder that accepts every sample -/

/-- Natural-number time, no operation in flight, and nothing that refuses a DEC operation. -/
structure Dec.Streaming (d : Dec) : Prop where
  timeWidth_eq : d.timeWidth = none
  flight_eq : d.flight = []
  ovf_eq : d.ovf = false
  mode_eq : d.mode = .run

theorem Dec.Streaming.decRefusal_eq {d : Dec} (h : d.Streaming) : decRefusal d = none :=
  decRefusal_run h.ovf_eq h.mode_eq

theorem ovfAfter_natural {d : Dec} (h : d.timeWidth = none) : ovfAfter d = d.ovf := by
  simp [ovfAfter, h]

/-- A sample keeps the time width, so with natural-number time it never sets `dec_ovf` (decision D2). -/
theorem Dec.Streaming.takeSample {d : Dec} (h : d.Streaming) (v : Bool) : (takeSample v d).Streaming := by
  obtain ⟨-, -, hovf, hmode, -, hwidth, hflight, -, -⟩ := takeSample_frame v d
  exact
    { timeWidth_eq := hwidth.trans h.timeWidth_eq
      flight_eq := hflight.trans h.flight_eq
      ovf_eq := hovf.trans ((ovfAfter_natural h.timeWidth_eq).trans h.ovf_eq)
      mode_eq := hmode.trans h.mode_eq }

theorem takeSample_outcomes (v : Bool) (d : Dec) : (takeSample v d).outcomes = d.outcomes := by
  obtain ⟨-, -, -, -, -, -, -, houtcomes, -⟩ := takeSample_frame v d
  exact houtcomes

theorem smpOp_of_streaming {d : Dec} (h : d.Streaming) (v : Bool) : smpOp v d = (.ok, takeSample v d) := by
  simp [smpOp, h.decRefusal_eq]

theorem eosOp_of_streaming {d : Dec} (h : d.Streaming) :
    eosOp d = (.ok, { takeSample (!d.lastLevel) d with mode := .done }) := by
  simp [eosOp, h.decRefusal_eq]

/-- Any number of samples: none is refused, since each leaves the decoder streaming. -/
theorem smpSeq_of_streaming (vs : List Bool) {d : Dec} (h : d.Streaming) :
    ∃ d', smpSeq vs d = (.ok, d') ∧ d'.Streaming ∧ d'.outcomes = d.outcomes := by
  induction vs generalizing d with
  | nil => exact ⟨d, rfl, h, rfl⟩
  | cons v vs ih =>
    obtain ⟨d', hseq, hd', hout⟩ := ih (h.takeSample v)
    exact ⟨d', by simpa [smpSeq, h.decRefusal_eq] using hseq, hd', hout.trans (takeSample_outcomes v d)⟩

theorem smpbOp_of_streaming (b : Byte) {d : Dec} (h : d.Streaming) :
    ∃ d', smpbOp b d = (.ok, d') ∧ d'.Streaming ∧ d'.outcomes = d.outcomes := by
  simpa [smpbOp, h.decRefusal_eq] using smpSeq_of_streaming (byteSamples b) h

/-! ### Content, then the end of the stream -/

/-- The report of an outcome touches none of what makes a decoder streaming. -/
theorem Dec.Streaming.reportDec {d : Dec} (h : d.Streaming) (o : OpOutcome) : (reportDec (o, d)).Streaming :=
  ⟨h.timeWidth_eq, h.flight_eq, h.ovf_eq, h.mode_eq⟩

/-- A DEC operation that ends `ok` with its decoder streaming lets the machine go on in the same way. -/
theorem runDec_of_streaming {f : Dec → OpOutcome × Dec} {s : State} (h : s.dec.Streaming)
    (hf : ∃ d', f s.dec = (.ok, d') ∧ d'.Streaming ∧ d'.outcomes = s.dec.outcomes) :
    ∃ d, runDec f s = .next { s with dec := d } ∧ d.Streaming ∧ d.outcomes = s.dec.outcomes ++ [.ok] := by
  obtain ⟨d', hfd, hd', hout⟩ := hf
  refine ⟨reportDec (.ok, d'), ?_, hd'.reportDec .ok, ?_⟩
  · rw [runDec_eq f h.flight_eq, hfd]
    rfl
  · simp [reportDec, hout]

/-- A sample or a byte ends `ok` and leaves the decoder streaming. -/
theorem exec_content_of_streaming {i : Instr} {s : State} (hi : (∃ v, i = .smp v) ∨ ∃ b, i = .smpb b)
    (h : s.dec.Streaming) :
    ∃ d, exec i s = .next { s with dec := d } ∧ d.Streaming ∧ d.outcomes = s.dec.outcomes ++ [.ok] := by
  obtain ⟨v, rfl⟩ | ⟨b, rfl⟩ := hi
  · exact runDec_of_streaming (f := smpOp v) h
      ⟨_, smpOp_of_streaming h v, h.takeSample v, takeSample_outcomes v s.dec⟩
  · exact runDec_of_streaming (f := smpbOp b) h (smpbOp_of_streaming b h)

theorem exec_eos_of_streaming {s : State} (h : s.dec.Streaming) :
    ∃ d, exec .eos s = .next { s with dec := d } ∧ d.mode = .done ∧ d.outcomes = s.dec.outcomes ++ [.ok] := by
  refine ⟨reportDec (eosOp s.dec), ?_, ?_, ?_⟩
  · exact runDec_eq eosOp h.flight_eq
  · simp [reportDec, eosOp_of_streaming h]
  · simp [reportDec, eosOp_of_streaming h, takeSample_outcomes]

/-- Content and then `EOS`, by induction on the content: the first operation leaves the decoder streaming for the rest. -/
theorem runOps_content_eos {ops : List Instr} {s : State} (hops : ∀ i ∈ ops, (∃ v, i = .smp v) ∨ ∃ b, i = .smpb b)
    (h : s.dec.Streaming) :
    ∃ d, runOps (ops ++ [.eos]) s = .next { s with dec := d } ∧ d.mode = .done ∧
      d.outcomes = s.dec.outcomes ++ List.replicate (ops.length + 1) .ok := by
  induction ops generalizing s with
  | nil => simpa [runOps_singleton] using exec_eos_of_streaming h
  | cons i ops ih =>
    obtain ⟨hi, hops⟩ := List.forall_mem_cons.1 hops
    obtain ⟨d₁, hexec, hd₁, hout₁⟩ := exec_content_of_streaming hi h
    obtain ⟨d, hrun, hmode, hout⟩ := ih (s := { s with dec := d₁ }) hops hd₁
    refine ⟨d, ?_, hmode, ?_⟩
    · rw [List.cons_append, runOps_cons_of_next hexec, hrun]
    · simp [hout, hout₁, List.replicate_succ]

/-- Settles O21: in `Run` with natural-number time and nothing in flight the decoder is streaming. -/
theorem decodeNeverFailsOnContent : Obligations.DecodeNeverFailsOnContent := by
  intro ops s hops hwidth hflight hovf hmode
  exact runOps_content_eos hops ⟨hwidth, hflight, hovf, hmode⟩

end Sys2Proof.Machine
end

section
/-! The family of 10_state.md, the decoder's invariant (R25, R27, R29, R30). Its eleven clauses fall into four parts that a
sample keeps for different reasons: what the registers hold, the order of the edges, what holds before the first sample, and
the width of the time index. -/

namespace Sys2Proof.Machine

/-! ### The time index after a sample -/

/-- A sample without overflow so far either advances the time index or stands at the last time and sets `dec_ovf` (R22,
R29). -/
theorem timeAfter_cases {d : Dec} (hovf : d.ovf = false) :
    (timeAfter d = d.t + 1 ∧ ovfAfter d = false ∧ ∀ w, d.timeWidth = some w → d.t + 1 < 2 ^ w) ∨
    (timeAfter d = d.t ∧ ovfAfter d = true ∧ ∃ w, d.timeWidth = some w ∧ 2 ^ w ≤ d.t + 1) := by
  unfold timeAfter ovfAfter
  rcases d.timeWidth with _ | w
  · exact .inl ⟨rfl, hovf, by simp⟩
  · by_cases hlast : d.t + 1 < 2 ^ w
    · exact .inl ⟨if_pos hlast, by simp [hlast, hovf], by simpa using hlast⟩
    · exact .inr ⟨if_neg hlast, by simp [hlast], w, rfl, Nat.le_of_not_lt hlast⟩

/-! ### The invariant by its four parts -/

/-- The parameter registers hold legal values, and the grouping counter is in the range that GROUP gives it. -/
structure Dec.RegistersLegal (d : Dec) : Prop where
  wf : d.params.wf = true
  grpCnt_lt : d.grpCnt < d.params.group
  fits : ∀ r, paramFits d.timeWidth r (getParam r d.params) = true ∨ getParam r d.params = getParam r defaultParams

/-- The order of the latest edges, between themselves (R25) and against the samples taken. -/
structure Dec.EdgesOrdered (d : Dec) : Prop where
  low : d.lastLevel = false → d.lastRise < d.lastFall ∨ (d.lastRise = 0 ∧ d.lastFall = 0)
  high : d.lastLevel = true → d.lastFall ≤ d.lastRise
  rise_le : d.lastRise ≤ d.t
  fall_le : d.lastFall ≤ d.t
  earlier : d.ovf = false → 0 < d.t → d.lastRise < d.t ∧ d.lastFall < d.t

/-- Before the first sample the line is low and nothing was emitted. -/
def Dec.FreshAtStart (d : Dec) : Prop := d.t = 0 → d.lastLevel = false ∧ d.grpCnt = 0 ∧ d.emitted = []

/-- The time index is below `2^TW`, and `dec_ovf` is set at the last time only (R29). -/
structure Dec.TimeWithin (d : Dec) : Prop where
  natural : d.timeWidth = none → d.ovf = false
  finite : ∀ w, d.timeWidth = some w → 0 < w ∧ d.t < 2 ^ w ∧ (d.ovf = true → d.t + 1 = 2 ^ w)

theorem decInv_iff {d : Dec} :
    DecInv d ↔ d.RegistersLegal ∧ d.EdgesOrdered ∧ d.FreshAtStart ∧ d.TimeWithin := by
  constructor
  · rintro ⟨hwf, hgrp, hlow, hhigh, hrise, hfall, hearlier, hfresh, hnatural, hfinite, hfits⟩
    exact ⟨⟨hwf, hgrp, hfits⟩, ⟨hlow, hhigh, hrise, hfall, hearlier⟩, hfresh, ⟨hnatural, hfinite⟩⟩
  · rintro ⟨⟨hwf, hgrp, hfits⟩, ⟨hlow, hhigh, hrise, hfall, hearlier⟩, hfresh, ⟨hnatural, hfinite⟩⟩
    exact ⟨hwf, hgrp, hlow, hhigh, hrise, hfall, hearlier, hfresh, hnatural, hfinite, hfits⟩

/-! ### At reset -/

theorem decInv_reset {timeWidth : Option Nat} (hpos : ∀ w, timeWidth = some w → 0 < w) :
    DecInv (Dec.reset timeWidth) := by
  refine decInv_iff.2 ⟨⟨rfl, by simp [Dec.reset, defaultParams], fun _ => .inr rfl⟩, ?_, fun _ => ⟨rfl, rfl, rfl⟩,
    ⟨fun _ => rfl, ?_⟩⟩
  · exact ⟨fun _ => .inr ⟨rfl, rfl⟩, by simp [Dec.reset], Nat.le_refl 0, Nat.le_refl 0, by simp [Dec.reset]⟩
  · exact fun w hw => ⟨hpos w hw, Nat.two_pow_pos w, by simp [Dec.reset]⟩

theorem streamInv_reset (timeWidth : Option Nat) : StreamInv (Dec.reset timeWidth) := rfl

theorem sessionInv_reset : SessionInv Tx.reset :=
  ⟨fun _ hflight => (nomatch hflight), fun _ => ⟨[], by simp, rfl⟩⟩

/-- Settles O45: natural-number time has no width that could be 0, and nothing was recorded or sent. -/
theorem invariantsHoldAtReset : Obligations.InvariantsHoldAtReset :=
  ⟨decInv_reset (by simp), streamInv_reset none, sessionInv_reset⟩

/-! ### What a sample keeps -/

/-- A rising edge moves the counter by `Emit`, which stays in range (R27); no other sample writes it. -/
theorem takeSample_grpCnt_lt {d : Dec} (v : Bool) (hgroup : 1 ≤ d.params.group) (hgrp : d.grpCnt < d.params.group) :
    (takeSample v d).grpCnt < d.params.group := by
  rcases takeSample_cases v d with rfl | ⟨rfl, hlevel⟩ | ⟨rfl, hlevel⟩
  · simpa [takeSample_noEdge] using hgrp
  · simpa [takeSample_fall hlevel] using hgrp
  · simpa [takeSample_rise hlevel] using groupsOf_lt _ hgroup hgrp

theorem Dec.RegistersLegal.takeSample {d : Dec} (h : d.RegistersLegal) (v : Bool) : (takeSample v d).RegistersLegal := by
  obtain ⟨-, -, -, -, hparams, hwidth, -, -, -⟩ := takeSample_frame v d
  obtain ⟨hgroup, -⟩ : 1 ≤ d.params.group ∧ d.params.group ≤ 255 := by simpa [Params.wf] using h.wf
  exact
    { wf := by rw [hparams]; exact h.wf
      grpCnt_lt := by rw [hparams]; exact takeSample_grpCnt_lt v hgroup h.grpCnt_lt
      fits := by rw [hparams, hwidth]; exact h.fits }

/-- An edge is recorded at the time of its sample, so it is later than the edge before it; a falling edge is not the first
sample, for the line starts low (R25, R101). -/
theorem Dec.EdgesOrdered.takeSample {d : Dec} (h : d.EdgesOrdered) (hfresh : d.FreshAtStart) (hovf : d.ovf = false)
    (v : Bool) : (takeSample v d).EdgesOrdered := by
  obtain ⟨hlow, hhigh, hrise, hfall, hearlier⟩ := h
  have htime : d.t ≤ timeAfter d ∧ (ovfAfter d = false → d.t < timeAfter d) := by
    rcases timeAfter_cases hovf with ⟨ht, ho, -⟩ | ⟨ht, ho, -⟩ <;> simp [ht, ho]
  obtain ⟨hle, hlt⟩ := htime
  have hbefore := hearlier hovf
  rcases takeSample_cases v d with rfl | ⟨rfl, hlevel⟩ | ⟨rfl, hlevel⟩
  · rw [takeSample_noEdge]
    exact ⟨hlow, hhigh, hrise.trans hle, hfall.trans hle,
      fun ho _ => ⟨hrise.trans_lt (hlt ho), hfall.trans_lt (hlt ho)⟩⟩
  · have hpos : 0 < d.t := Nat.pos_of_ne_zero fun ht => absurd (hfresh ht).1 (by simp [hlevel])
    rw [takeSample_fall hlevel]
    exact ⟨fun _ => .inl (hbefore hpos).1, by simp, hrise.trans hle, hle,
      fun ho _ => ⟨hrise.trans_lt (hlt ho), hlt ho⟩⟩
  · rw [takeSample_rise hlevel]
    exact ⟨by simp, fun _ => hfall, hle, hfall.trans hle, fun ho _ => ⟨hlt ho, hfall.trans_lt (hlt ho)⟩⟩

/-- With a positive time width the first sample is not the last time. -/
theorem timeAfter_pos {d : Dec} (h : d.TimeWithin) (hovf : d.ovf = false) : 0 < timeAfter d := by
  rcases timeAfter_cases hovf with ⟨ht, -, -⟩ | ⟨ht, -, w, hw, hlast⟩
  · omega
  · obtain ⟨hpos, -, -⟩ := h.finite w hw
    have htwo : 2 ^ 1 ≤ 2 ^ w := Nat.pow_le_pow_right (by decide) hpos
    omega

theorem Dec.TimeWithin.freshAtStart_takeSample {d : Dec} (h : d.TimeWithin) (hovf : d.ovf = false) (v : Bool) :
    (takeSample v d).FreshAtStart := by
  obtain ⟨-, ht, -⟩ := takeSample_frame v d
  have hpos := timeAfter_pos h hovf
  intro hzero
  omega

theorem Dec.TimeWithin.takeSample {d : Dec} (h : d.TimeWithin) (hovf : d.ovf = false) (v : Bool) :
    (takeSample v d).TimeWithin := by
  obtain ⟨-, ht, ho, -, -, hwidth, -⟩ := takeSample_frame v d
  constructor
  · intro hnone
    rw [ho, ovfAfter_natural (hwidth ▸ hnone), hovf]
  · intro w hw
    rw [hwidth] at hw
    obtain ⟨hpos, hbound, -⟩ := h.finite w hw
    rw [ht, ho]
    rcases timeAfter_cases hovf with ⟨ht', ho', hroom⟩ | ⟨ht', ho', w', hw', hlast⟩
    · exact ⟨hpos, by rw [ht']; exact hroom w hw, by simp [ho']⟩
    · obtain rfl : w = w' := Option.some.inj (hw.symm.trans hw')
      exact ⟨hpos, by omega, fun _ => by omega⟩

theorem takeSample_keeps_decInv {d : Dec} (v : Bool) (hrun : decRefusal d = none) (h : DecInv d) :
    DecInv (takeSample v d) := by
  obtain ⟨hovf, -⟩ := decRefusal_eq_none.1 hrun
  obtain ⟨hregs, hedges, hfresh, htime⟩ := decInv_iff.1 h
  exact decInv_iff.2 ⟨hregs.takeSample v, hedges.takeSample hfresh hovf v, htime.freshAtStart_takeSample hovf v,
    htime.takeSample hovf v⟩

/-! ### What a parameter write keeps -/

theorem paramsOpen_iff {d : Dec} : paramsOpen d = true ↔ d.mode = .run ∧ d.t = 0 := by
  simp [paramsOpen]

theorem wf_setParam {r : ParamReg} {v : Nat} {p : Params} (hlegal : paramLegal r v = true) (h : p.wf = true) :
    (setParam r v p).wf = true := by
  cases r
  case group => exact hlegal
  all_goals exact h

/-- At the start the grouping counter is 0, below every legal GROUP, so any legal record may be written. -/
theorem newParams_keeps_decInv {d : Dec} {q : Params} (hopen : paramsOpen d = true) (hwf : q.wf = true)
    (hfits : ∀ r, paramFits d.timeWidth r (getParam r q) = true ∨ getParam r q = getParam r defaultParams)
    (h : DecInv d) : DecInv { d with params := q } := by
  obtain ⟨-, hedges, hfresh, htime⟩ := decInv_iff.1 h
  obtain ⟨-, ht⟩ := paramsOpen_iff.1 hopen
  obtain ⟨-, hgrp, -⟩ := hfresh ht
  obtain ⟨hgroup, -⟩ : 1 ≤ q.group ∧ q.group ≤ 255 := by simpa [Params.wf] using hwf
  have hregs : Dec.RegistersLegal { d with params := q } := ⟨hwf, (by omega : d.grpCnt < q.group), hfits⟩
  exact decInv_iff.2 ⟨hregs, ⟨hedges.low, hedges.high, hedges.rise_le, hedges.fall_le, hedges.earlier⟩, hfresh,
    ⟨htime.natural, htime.finite⟩⟩

theorem setParam_keeps_decInv {d : Dec} {r : ParamReg} {v : Nat} (hopen : paramsOpen d = true)
    (hlegal : paramLegal r v = true) (hfit : paramFits d.timeWidth r v = true) (h : DecInv d) :
    DecInv { d with params := setParam r v d.params } := by
  obtain ⟨hregs, -⟩ := decInv_iff.1 h
  refine newParams_keeps_decInv hopen (wf_setParam hlegal hregs.wf) (fun g => ?_) h
  rw [getParam_setParam]
  split
  next hg => exact .inl (hg ▸ hfit)
  next => exact hregs.fits g

theorem resetDec_keeps_decInv {d : Dec} (h : DecInv d) : DecInv (resetDec d) := by
  obtain ⟨-, -, -, htime⟩ := decInv_iff.1 h
  have hpos : ∀ w, d.timeWidth = some w → 0 < w := fun w hw => (htime.finite w hw).1
  exact decInv_reset hpos

/-- Settles O46: the invariant is closed under the updates that every step is made of. -/
theorem stepKeepsDecoderInvariant : Obligations.StepKeepsDecoderInvariant := by
  intro s s' h hs
  exact step_keeps_dec DecInv
    (hreport := fun _ _ h => h)
    (hdone := fun _ h => h)
    (hflight := fun _ _ h => h)
    (hsample := fun v _ hrun h => takeSample_keeps_decInv v hrun h)
    (hreset := fun _ h => resetDec_keeps_decInv h)
    (hparam := fun _ _ _ hopen hlegal hfit h => setParam_keeps_decInv hopen hlegal hfit h)
    (hdrive := fun _ _ hopen hwf hfit h =>
      newParams_keeps_decInv hopen hwf (fun r => .inl (paramsFit_iff.1 hfit r)) h)
    h hs

end Sys2Proof.Machine
end

section
/-! The family of 10_state.md, the operations of DEC: when one is refused and what a refusal leaves (R26, R29), how samples
move the time index (R22, R29), that the agents share no state (R20), and that the grouping counter is a side-band (R27). -/

namespace Sys2Proof.Machine

/-! ### The four operations of DEC -/

/-- What the four operations of agent DEC do to it. -/
inductive IsDecOp : (Dec → OpOutcome × Dec) → Prop
  | smp (v : Bool) : IsDecOp (smpOp v)
  | smpb (b : Byte) : IsDecOp (smpbOp b)
  | eos : IsDecOp eosOp
  | srcerr : IsDecOp srcerrOp

theorem exec_isDecOp {i : Instr} (hi : decInstr i = true) : ∃ f, IsDecOp f ∧ ∀ s, exec i s = runDec f s := by
  cases i <;> simp only [decInstr, Bool.false_eq_true] at hi
  case smp v => exact ⟨_, .smp v, fun _ => rfl⟩
  case smpb b => exact ⟨_, .smpb b, fun _ => rfl⟩
  case eos => exact ⟨_, .eos, fun _ => rfl⟩
  case srcerr => exact ⟨_, .srcerr, fun _ => rfl⟩

/-- "A refusal changes no state" (00_scope.md R15). -/
theorem IsDecOp.refused {f : Dec → OpOutcome × Dec} (hf : IsDecOp f) {d : Dec} {r : OpOutcome}
    (hr : decRefusal d = some r) : f d = (r, d) := by
  cases hf with
  | smp v => simp [smpOp, hr]
  | smpb b => simp [smpbOp, hr]
  | eos => simp [eosOp, hr]
  | srcerr => simp [srcerrOp, hr]

theorem exec_refused {i : Instr} {s : State} {r : OpOutcome} (hi : decInstr i = true) (hflight : s.dec.flight = [])
    (hr : decRefusal s.dec = some r) :
    exec i s = .next { s with dec := { s.dec with outcomes := s.dec.outcomes ++ [r] } } := by
  obtain ⟨f, hf, hexec⟩ := exec_isDecOp hi
  rw [hexec, runDec_eq f hflight, hf.refused hr]

/-- Settles O15: an overflow refuses before `Done` does, and a refused operation reports its outcome only. -/
theorem decOperationsRefused : Obligations.DecOperationsRefused := fun _ _ hi hflight =>
  ⟨fun hovf => exec_refused hi hflight (decRefusal_ovf hovf),
    fun hovf hmode => exec_refused hi hflight (decRefusal_done hovf hmode)⟩

/-! ### Samples that are accepted -/

theorem exec_smp_accepted {s : State} (v : Bool) (hflight : s.dec.flight = []) (hrun : decRefusal s.dec = none) :
    exec (.smp v) s =
      .next { s with dec := { takeSample v s.dec with outcomes := s.dec.outcomes ++ [.ok] } } := by
  have hop : smpOp v s.dec = (.ok, takeSample v s.dec) := by simp [smpOp, hrun]
  calc exec (.smp v) s = runDec (smpOp v) s := rfl
    _ = _ := by rw [runDec_eq _ hflight, hop, takeSample_outcomes]

/-- The time of a finite implementation leaves `n` more values above `t`; with natural-number time it always does. -/
theorem room_of_natural_or_below {timeWidth : Option Nat} {t n : Nat}
    (h : timeWidth = none ∨ ∃ w, timeWidth = some w ∧ t + n < 2 ^ w) : ∀ w, timeWidth = some w → t + n < 2 ^ w := by
  rintro w rfl
  obtain h | ⟨w', hw', hlt⟩ := h
  · cases h
  · cases hw'
    exact hlt

theorem timeAfter_early {d : Dec} (hovf : d.ovf = false) (hroom : ∀ w, d.timeWidth = some w → d.t + 1 < 2 ^ w) :
    timeAfter d = d.t + 1 ∧ ovfAfter d = false := by
  rcases timeAfter_cases hovf with ⟨ht, ho, -⟩ | ⟨-, -, w, hw, hlast⟩
  · exact ⟨ht, ho⟩
  · exact absurd (hroom w hw) (Nat.not_lt.2 hlast)

theorem timeAfter_last {d : Dec} (hovf : d.ovf = false) {w : Nat} (hw : d.timeWidth = some w) (hlast : d.t + 1 = 2 ^ w) :
    timeAfter d = d.t ∧ ovfAfter d = true := by
  rcases timeAfter_cases hovf with ⟨-, -, hroom⟩ | ⟨ht, ho, -⟩
  · exact absurd hlast (hroom w hw).ne
  · exact ⟨ht, ho⟩

/-- Settles O20: the sample is accepted, and the time index and `dec_ovf` after it follow `timeAfter` and `ovfAfter`. -/
theorem lastTimeSetsOverflow : Obligations.LastTimeSetsOverflow := by
  intro v s hflight hovf hmode
  have hexec := exec_smp_accepted v hflight (decRefusal_run hovf hmode)
  obtain ⟨hlevel, ht, ho, hmode', -⟩ := takeSample_frame v s.dec
  constructor
  · intro w hw hlast
    obtain ⟨htime, hset⟩ := timeAfter_last hovf hw hlast
    exact ⟨_, hexec, ht.trans htime, ho.trans hset, hlevel, hmode'.trans hmode, rfl⟩
  · intro hroom
    obtain ⟨htime, hclear⟩ := timeAfter_early hovf (room_of_natural_or_below hroom)
    exact ⟨_, hexec, ht.trans htime, ho.trans hclear, hlevel, hmode'.trans hmode, rfl⟩

/-! ### A byte's samples -/

/-- Nothing in flight, nothing that refuses a DEC operation, and time enough for `n` samples before the last time. -/
structure Dec.RoomFor (d : Dec) (n : Nat) : Prop where
  flight_eq : d.flight = []
  ovf_eq : d.ovf = false
  mode_eq : d.mode = .run
  time_lt : ∀ w, d.timeWidth = some w → d.t + n < 2 ^ w

theorem Dec.RoomFor.mono {d : Dec} {m n : Nat} (h : d.RoomFor n) (hmn : m ≤ n) : d.RoomFor m :=
  { h with time_lt := fun w hw => (Nat.add_le_add_left hmn d.t).trans_lt (h.time_lt w hw) }

theorem Dec.RoomFor.decRefusal_eq {d : Dec} {n : Nat} (h : d.RoomFor n) : decRefusal d = none :=
  decRefusal_run h.ovf_eq h.mode_eq

theorem Dec.RoomFor.takeSample_t {d : Dec} {n : Nat} (h : d.RoomFor (n + 1)) (v : Bool) :
    (takeSample v d).t = d.t + 1 := by
  obtain ⟨-, ht, -⟩ := takeSample_frame v d
  obtain ⟨htime, -⟩ := timeAfter_early h.ovf_eq (h.mono (Nat.le_add_left 1 n)).time_lt
  exact ht.trans htime

theorem Dec.RoomFor.takeSample {d : Dec} {n : Nat} (h : d.RoomFor (n + 1)) (v : Bool) : (takeSample v d).RoomFor n := by
  obtain ⟨-, -, ho, hmode, -, hwidth, hflight, -⟩ := takeSample_frame v d
  obtain ⟨-, hclear⟩ := timeAfter_early h.ovf_eq (h.mono (Nat.le_add_left 1 n)).time_lt
  refine ⟨hflight.trans h.flight_eq, ho.trans hclear, hmode.trans h.mode_eq, fun w hw => ?_⟩
  have hlt := h.time_lt w (hwidth ▸ hw)
  rw [h.takeSample_t v]
  omega

/-- Samples with room for them are all accepted and take one tick each; the level is the last one's. -/
theorem smpSeq_of_roomFor (vs : List Bool) {d : Dec} (h : d.RoomFor vs.length) :
    ∃ d', smpSeq vs d = (.ok, d') ∧ d'.RoomFor 0 ∧ d'.t = d.t + vs.length ∧ d'.lastLevel = vs.getLastD d.lastLevel ∧
      d'.params = d.params ∧ d'.outcomes = d.outcomes := by
  induction vs generalizing d with
  | nil => exact ⟨d, rfl, h, rfl, rfl, rfl, rfl⟩
  | cons v vs ih =>
    obtain ⟨d', hseq, hroom, ht, hlast, hparams, hout⟩ := ih (h.takeSample v)
    obtain ⟨hlevel, -, -, -, hparams', -⟩ := takeSample_frame v d
    refine ⟨d', by simpa [smpSeq, h.decRefusal_eq] using hseq, hroom, ?_, ?_, hparams.trans hparams',
      hout.trans (takeSample_outcomes v d)⟩
    · rw [ht, h.takeSample_t v, List.length_cons]
      omega
    · rw [hlast, hlevel, List.getLastD_cons]

theorem runOps_smp_of_roomFor (vs : List Bool) {s : State} (h : s.dec.RoomFor vs.length) :
    ∃ s', runOps (vs.map .smp) s = .next s' ∧ s'.dec.t = s.dec.t + vs.length := by
  induction vs generalizing s with
  | nil => exact ⟨s, rfl, rfl⟩
  | cons v vs ih =>
    have hexec := exec_smp_accepted v h.flight_eq h.decRefusal_eq
    have hroom := h.takeSample v
    obtain ⟨s', hrun, ht⟩ := ih (s := { s with dec := { takeSample v s.dec with outcomes := s.dec.outcomes ++ [.ok] } })
      ⟨hroom.flight_eq, hroom.ovf_eq, hroom.mode_eq, hroom.time_lt⟩
    refine ⟨s', by rw [List.map_cons, runOps_cons_of_next hexec, hrun], ?_⟩
    rw [ht, List.length_cons]
    have hone := h.takeSample_t v
    show (takeSample v s.dec).t + vs.length = _
    omega

/-- Bit 7 comes first (20_memory.md R53). -/
theorem byteSamples_getElem? (b : Byte) {j : Nat} (hj : j ≤ 7) : (byteSamples b)[j]? = some (b.getLsbD (7 - j)) := by
  interval_cases j <;> rfl

theorem exec_smpb_of_roomFor (b : Byte) {s : State} (h : s.dec.RoomFor 8) :
    ∃ d, exec (.smpb b) s = .next { s with dec := d } ∧ d.t = s.dec.t + 8 ∧ d.lastLevel = b.getLsbD 0 ∧
      d.mode = .run ∧ d.ovf = false ∧ d.outcomes = s.dec.outcomes ++ [.ok] ∧ d.params = s.dec.params := by
  obtain ⟨d, hseq, hroom, ht, hlevel, hparams, hout⟩ := smpSeq_of_roomFor (byteSamples b) (d := s.dec) h
  have hop : smpbOp b s.dec = (.ok, d) := by simpa [smpbOp, h.decRefusal_eq] using hseq
  have hexec : exec (.smpb b) s = .next { s with dec := reportDec (.ok, d) } := by
    rw [← hop]
    exact runDec_eq (smpbOp b) h.flight_eq
  exact ⟨_, hexec, ht, hlevel, hroom.mode_eq, hroom.ovf_eq, by simp [reportDec, hout], hparams⟩

/-- Settles O17: the eight samples have room, and so have the first `j` of them. -/
theorem smpbAdvancesTimeByEight : Obligations.SmpbAdvancesTimeByEight := by
  intro b s hflight hovf hmode hroom
  have h : s.dec.RoomFor 8 := ⟨hflight, hovf, hmode, room_of_natural_or_below hroom⟩
  refine ⟨exec_smpb_of_roomFor b h, fun j hj => ⟨byteSamples_getElem? b hj, ?_⟩⟩
  have hlen : ((byteSamples b).take j).length = j := by
    rw [List.length_take, show (byteSamples b).length = 8 from rfl]
    omega
  obtain ⟨s', hrun, ht⟩ := runOps_smp_of_roomFor ((byteSamples b).take j) (s := s) (h.mono (by omega))
  exact ⟨s', hrun, by rw [ht, hlen]⟩

/-! ### The agents share no state -/

/-- A DEC operation that answers replaces DEC by a value that the rest of the machine has no part in. -/
theorem exec_dec_answer {i : Instr} {s s' : State} (hi : decInstr i = true) (h : exec i s = .next s') :
    ∃ d, s' = { s with dec := d } ∧
      ∀ x e, exec i { s with tx := x, enc := e } = .next { s with dec := d, tx := x, enc := e } := by
  obtain ⟨f, hf⟩ := exec_dec hi
  rw [hf] at h
  obtain ⟨hflight, rfl⟩ := runDec_inv h
  exact ⟨_, rfl, fun x e => by rw [hf]; exact runDec_eq f hflight⟩

/-- Every other operation that answers replaces TX or the encoder's results by values that DEC has no part in. -/
theorem exec_other_answer {i : Instr} {s s' : State} (hi : decInstr i = false) (h : exec i s = .next s') :
    ∃ x e, s' = { s with tx := x, enc := e } ∧
      ∀ d, exec i { s with dec := d } = .next { s with dec := d, tx := x, enc := e } := by
  rcases exec_tx hi with ⟨f, hf⟩ | ⟨w, hw⟩
  · rw [hf] at h
    obtain ⟨hflight, rfl⟩ := runTx_inv h
    exact ⟨_, _, rfl, fun d => by rw [hf]; exact runTx_eq f hflight⟩
  · rw [hw] at h
    cases h
    exact ⟨_, _, rfl, fun d => hw _⟩

/-- Settles O33: the two forms of an answer, by the agent that the operation belongs to. -/
theorem agentsShareNoState : Obligations.AgentsShareNoState := by
  intro i s s' h
  rcases hi : decInstr i with _ | _
  · obtain ⟨x, e, rfl, hany⟩ := exec_other_answer hi h
    exact ⟨rfl, rfl, by simp, fun _ => ⟨rfl, hany⟩⟩
  · obtain ⟨d, rfl, hany⟩ := exec_dec_answer hi h
    exact ⟨rfl, rfl, fun _ => ⟨rfl, rfl, hany⟩, by simp⟩

/-! ### The grouping counter is a side-band -/

/-- The decoder with another grouping counter, other emissions and another GROUP. -/
def Dec.regroup (d : Dec) (g : Nat) (e : List Emitted) (n : Nat) : Dec :=
  { d with grpCnt := g, emitted := e, params := { d.params with group := n } }

theorem sameButGrouping_iff {d d' : Dec} :
    sameButGrouping d d' ↔ ∃ g e n, e.map recordOf = records d ∧ d' = d.regroup g e n := by
  constructor
  · rintro ⟨hrec, hrest⟩
    exact ⟨d'.grpCnt, d'.emitted, d'.params.group, hrec.symm, hrest.symm⟩
  · rintro ⟨g, e, n, he, rfl⟩
    exact ⟨he.symm, rfl⟩

theorem decRefusal_eq_of_sameButGrouping {d d' : Dec} (h : sameButGrouping d d') : decRefusal d' = decRefusal d := by
  obtain ⟨g, e, n, -, rfl⟩ := sameButGrouping_iff.1 h
  rfl

theorem flight_eq_of_sameButGrouping {d d' : Dec} (h : sameButGrouping d d') : d'.flight = d.flight := by
  obtain ⟨g, e, n, -, rfl⟩ := sameButGrouping_iff.1 h
  rfl

theorem lastLevel_eq_of_sameButGrouping {d d' : Dec} (h : sameButGrouping d d') : d'.lastLevel = d.lastLevel := by
  obtain ⟨g, e, n, -, rfl⟩ := sameButGrouping_iff.1 h
  rfl

/-- The records of a rising edge do not read the counter, and `Emit` writes nothing but its side-band value with them. -/
theorem takeSample_sameButGrouping {d d' : Dec} (v : Bool) (h : sameButGrouping d d') :
    sameButGrouping (takeSample v d) (takeSample v d') := by
  obtain ⟨g, e, n, he, rfl⟩ := sameButGrouping_iff.1 h
  rw [sameButGrouping_iff]
  rcases takeSample_cases v d with rfl | ⟨rfl, hlevel⟩ | ⟨rfl, hlevel⟩
  · rw [takeSample_noEdge]
    exact ⟨g, e, n, he, takeSample_noEdge (d.regroup g e n)⟩
  · rw [takeSample_fall hlevel]
    exact ⟨g, e, n, he, takeSample_fall (d := d.regroup g e n) hlevel⟩
  · rw [takeSample_rise hlevel]
    refine ⟨_, _, n, ?_, takeSample_rise (d := d.regroup g e n) hlevel⟩
    have hemit : e.map recordOf = d.emitted.map recordOf := he
    rw [records, List.map_append, List.map_append, groupsOf_records, groupsOf_records, ← hemit]
    rfl

theorem done_sameButGrouping {d d' : Dec} (h : sameButGrouping d d') :
    sameButGrouping { d with mode := .done } { d' with mode := .done } := by
  obtain ⟨g, e, n, he, rfl⟩ := sameButGrouping_iff.1 h
  exact sameButGrouping_iff.2 ⟨g, e, n, he, rfl⟩

/-- Two results of a DEC operation with the same outcome and decoders alike but for grouping. -/
def sameResult (r r' : OpOutcome × Dec) : Prop := r.1 = r'.1 ∧ sameButGrouping r.2 r'.2

theorem reportDec_sameButGrouping {r r' : OpOutcome × Dec} (h : sameResult r r') :
    sameButGrouping (reportDec r) (reportDec r') := by
  obtain ⟨o, d⟩ := r
  obtain ⟨o', d'⟩ := r'
  obtain ⟨rfl, hdec⟩ : o = o' ∧ sameButGrouping d d' := h
  obtain ⟨g, e, n, he, rfl⟩ := sameButGrouping_iff.1 hdec
  exact sameButGrouping_iff.2 ⟨g, e, n, he, rfl⟩

theorem smpSeq_sameResult (vs : List Bool) {d d' : Dec} (h : sameButGrouping d d') :
    sameResult (smpSeq vs d) (smpSeq vs d') := by
  induction vs generalizing d d' with
  | nil => exact ⟨rfl, h⟩
  | cons v vs ih =>
    have href := decRefusal_eq_of_sameButGrouping h
    rcases hr : decRefusal d with _ | r
    · simpa [smpSeq, href, hr] using ih (takeSample_sameButGrouping v h)
    · simpa [smpSeq, href, hr] using ⟨rfl, h⟩

theorem IsDecOp.sameResult {f : Dec → OpOutcome × Dec} (hf : IsDecOp f) {d d' : Dec} (h : sameButGrouping d d') :
    sameResult (f d) (f d') := by
  have href := decRefusal_eq_of_sameButGrouping h
  rcases hr : decRefusal d with _ | r
  · rw [hr] at href
    cases hf with
    | smp v => simpa [smpOp, hr, href] using ⟨rfl, takeSample_sameButGrouping v h⟩
    | smpb b => simpa [smpbOp, hr, href] using smpSeq_sameResult (byteSamples b) h
    | eos =>
      simp only [eosOp, hr, href, lastLevel_eq_of_sameButGrouping h]
      exact ⟨rfl, done_sameButGrouping (takeSample_sameButGrouping _ h)⟩
    | srcerr => simpa [srcerrOp, hr, href] using ⟨rfl, done_sameButGrouping h⟩
  · rw [hf.refused hr, hf.refused (href.trans hr)]
    exact ⟨rfl, h⟩

/-- Settles O22: an operation of DEC gives results alike but for grouping, every other one leaves DEC as it is. -/
theorem groupingNeverAffectsRecords : Obligations.GroupingNeverAffectsRecords := by
  intro i s s' d hsame h
  rcases hi : decInstr i with _ | _
  · obtain ⟨x, e, rfl, hany⟩ := exec_other_answer hi h
    exact ⟨d, hany d, hsame⟩
  · obtain ⟨f, hf, hexec⟩ := exec_isDecOp hi
    rw [hexec] at h
    obtain ⟨hflight, rfl⟩ := runDec_inv h
    refine ⟨reportDec (f d), ?_, reportDec_sameButGrouping (hf.sameResult hsame)⟩
    rw [hexec]
    exact runDec_eq f ((flight_eq_of_sameButGrouping hsame).trans hflight)

end Sys2Proof.Machine
end

section
/-! The family of 10_state.md, what lasts: what reset leaves (R35), when a parameter register may be written (R30, R31), that
the parameters are constant in a run (R34), and that `Done` and `Closed` last until the reset of their agent (R26, R28). -/

namespace Sys2Proof.Machine

/-- Settles O41: the reset states are literals. -/
theorem resetLeavesTheTable : Obligations.ResetLeavesTheTable :=
  ⟨rfl, rfl, rfl, rfl, rfl, rfl, rfl, rfl, rfl, rfl, rfl, rfl, fun _ => rfl⟩

/-! ### Parameter writes -/

theorem paramsOpen_eq_false_iff {d : Dec} : paramsOpen d = false ↔ d.mode = .done ∨ 0 < d.t := by
  rcases hmode : d.mode <;> simp [paramsOpen, hmode, Nat.pos_iff_ne_zero]

theorem paramLegal_iff {r : ParamReg} {v : Nat} : paramLegal r v = true ↔ (r = .group → 1 ≤ v ∧ v ≤ 255) := by
  cases r <;> simp [paramLegal]

theorem step_setParam {s : State} {r : ParamReg} {v : Nat} {rest : List Input} (h : s.inputs = .setParam r v :: rest) :
    step s = writeParam r v (s.withInputs rest) := by
  simp [step, h, runInput]

theorem writeParam_accepted {r : ParamReg} {v : Nat} {s : State} (hopen : paramsOpen s.dec = true)
    (hlegal : paramLegal r v = true) (hfits : paramFits s.dec.timeWidth r v = true) :
    writeParam r v s = .next { s with dec := { s.dec with params := setParam r v s.dec.params } } := by
  simp [writeParam, hopen, hlegal, hfits, State.withDec]

theorem writeParam_locked (r : ParamReg) (v : Nat) {s : State} (hlocked : paramsOpen s.dec = false) :
    writeParam r v s = .refused .paramsLocked := by
  simp [writeParam, hlocked]

theorem writeParam_illegal {r : ParamReg} {v : Nat} {s : State} (hopen : paramsOpen s.dec = true)
    (hillegal : paramLegal r v = false) : writeParam r v s = .refused .groupIllegal := by
  simp [writeParam, hopen, hillegal]

theorem writeParam_tooWide {r : ParamReg} {v : Nat} {s : State} (hopen : paramsOpen s.dec = true)
    (hlegal : paramLegal r v = true) (hwide : paramFits s.dec.timeWidth r v = false) :
    writeParam r v s = .refused .paramTooWide := by
  simp [writeParam, hopen, hlegal, hwide]

/-- Settles O43: the checks of a parameter write in their order, each met or broken. -/
theorem parameterWritesOnlyAtStart : Obligations.ParameterWritesOnlyAtStart := by
  intro r v rest s hs
  rw [step_setParam hs]
  have hopen : s.dec.mode = .run → s.dec.t = 0 → paramsOpen (s.withInputs rest).dec = true :=
    fun hmode ht => paramsOpen_iff.2 ⟨hmode, ht⟩
  refine ⟨fun hmode ht hgroup htime => ?_, fun hmode ht hr hv => ?_, fun hmode ht hr w hw hv => ?_, fun hlocked => ?_⟩
  · refine ⟨_, writeParam_accepted (hopen hmode ht) (paramLegal_iff.2 hgroup) (paramFits_iff.2 htime), ?_⟩
    cases r <;> exact ⟨rfl, rfl, rfl, rfl, rfl, rfl, rfl, rfl⟩
  · have hillegal : ¬ paramLegal r v = true := fun hlegal => by
      have hrange := paramLegal_iff.1 hlegal hr
      omega
    exact writeParam_illegal (hopen hmode ht) (Bool.eq_false_iff.2 hillegal)
  · have hlegal : paramLegal r v = true := paramLegal_iff.2 fun hgroup => absurd hgroup hr
    have hwide : ¬ paramFits s.dec.timeWidth r v = true := fun hfits => Nat.not_lt.2 hv (paramFits_iff.1 hfits hr w hw)
    exact writeParam_tooWide (hopen hmode ht) hlegal (Bool.eq_false_iff.2 hwide)
  · exact writeParam_locked r v (paramsOpen_eq_false_iff.2 hlocked)

/-! ### A step that does not reset a started decoder -/

/-- What a clock edge that does not reset DEC does to it: nothing, one operation, or a sample of the byte in flight. -/
theorem advanceDec_cases (p : Pins) (d : Dec) :
    advanceDec p d = d ∨ (∃ f, IsDecOp f ∧ advanceDec p d = reportDec (f d)) ∨ ∃ vs, advanceDec p d = flightStep vs d := by
  unfold advanceDec
  split
  · unfold startDec
    split
    · exact .inr (.inl ⟨_, .smp _, rfl⟩)
    · split
      · exact .inr (.inr ⟨_, rfl⟩)
      · split
        · exact .inr (.inl ⟨_, .eos, rfl⟩)
        · split
          · exact .inr (.inl ⟨_, .srcerr, rfl⟩)
          · exact .inl rfl
  · exact .inr (.inr ⟨_, rfl⟩)

@[simp] theorem clockCycle_dec (p : Pins) (s : State) : (clockCycle p s).dec = clockDec p s.dec := rfl

@[simp] theorem clockCycle_tx (p : Pins) (s : State) : (clockCycle p s).tx = clockTx p s.tx := rfl

/-- Once a sample was taken, or in `Done`, the parameters are locked, so all that a step without a reset can do to DEC is an
operation or one cycle of it. -/
theorem step_dec_cases_of_locked {s s' : State} (h : step s = .next s') (hreset : resetsDec s = false)
    (hlocked : paramsOpen s.dec = false) :
    s'.dec = s.dec ∨ (∃ f, IsDecOp f ∧ s'.dec = reportDec (f s.dec)) ∨ ∃ vs, s'.dec = flightStep vs s.dec := by
  rcases step_cases h with ⟨hdec, -⟩ | ⟨i, rest, hexec⟩ | ⟨dec, tx, rest, hi, rfl⟩ | ⟨r, v, rest, -, hopen, -⟩ |
      ⟨p, rest, hi, rfl⟩
  · exact .inl hdec
  · rcases exec_dec_cases hexec with ⟨-, e⟩ | ⟨v, -, e⟩ | ⟨b, -, e⟩ | ⟨-, e⟩ | ⟨-, e⟩
    · exact .inl e
    · exact .inr (.inl ⟨_, .smp v, e⟩)
    · exact .inr (.inl ⟨_, .smpb b, e⟩)
    · exact .inr (.inl ⟨_, .eos, e⟩)
    · exact .inr (.inl ⟨_, .srcerr, e⟩)
  · obtain rfl : dec = false := by simpa [resetsDec, hi] using hreset
    exact .inl rfl
  · exact absurd hopen (by simp [hlocked])
  · have hrst : p.decRst = false := by simpa [resetsDec, hi] using hreset
    have hclock : clockDec p s.dec = advanceDec p s.dec := by simp [clockDec, hrst, driveParams_locked p hlocked]
    rw [clockCycle_dec, State.withInputs_dec, hclock]
    exact advanceDec_cases p s.dec

/-! ### The parameters are constant in a run -/

theorem takeSample_params (v : Bool) (d : Dec) : (takeSample v d).params = d.params := by
  obtain ⟨-, -, -, -, hparams, -⟩ := takeSample_frame v d
  exact hparams

theorem smpSeq_params (vs : List Bool) (d : Dec) : (smpSeq vs d).2.params = d.params := by
  induction vs generalizing d with
  | nil => rfl
  | cons v vs ih =>
    rcases hr : decRefusal d with _ | r
    · simp [smpSeq, hr, ih, takeSample_params]
    · simp [smpSeq, hr]

theorem IsDecOp.params {f : Dec → OpOutcome × Dec} (hf : IsDecOp f) (d : Dec) : (f d).2.params = d.params := by
  rcases hr : decRefusal d with _ | r
  · cases hf with
    | smp v => simp [smpOp, hr, takeSample_params]
    | smpb b => simp [smpbOp, hr, smpSeq_params]
    | eos => simp [eosOp, hr, takeSample_params]
    | srcerr => simp [srcerrOp, hr]
  · rw [hf.refused hr]

theorem flightStep_params (vs : List Bool) (d : Dec) : (flightStep vs d).params = d.params := by
  rcases vs with _ | ⟨v, vs⟩
  · rfl
  · rcases hr : decRefusal d with _ | r
    · rcases vs with _ | ⟨w, ws⟩
      · rw [flightStep_last hr]
        exact takeSample_params v d
      · rw [flightStep_more hr]
        exact takeSample_params v d
    · rw [flightStep_refused hr]
      rfl

theorem step_timeWidth {s s' : State} (h : step s = .next s') : s'.dec.timeWidth = s.dec.timeWidth := by
  refine step_keeps_dec (fun d => d.timeWidth = s.dec.timeWidth)
    (hreport := fun _ _ h => h)
    (hdone := fun _ h => h)
    (hflight := fun _ _ h => h)
    (hsample := fun v d _ h => ?_)
    (hreset := fun _ h => h)
    (hparam := fun _ _ _ _ _ _ h => h)
    (hdrive := fun _ _ _ _ _ h => h)
    rfl h
  obtain ⟨-, -, -, -, -, hwidth, -⟩ := takeSample_frame v d
  exact hwidth.trans h

/-- Settles O44: what a step can do to a started decoder writes no parameter. -/
theorem parametersConstantInARun : Obligations.ParametersConstantInARun := by
  intro s s' h
  refine ⟨step_timeWidth h, fun hreset hstarted => ?_⟩
  rcases step_dec_cases_of_locked h hreset (paramsOpen_eq_false_iff.2 hstarted.symm) with e | ⟨f, hf, e⟩ | ⟨vs, e⟩
  · rw [e]
  · rw [e]
    exact hf.params s.dec
  · rw [e]
    exact flightStep_params vs s.dec

/-! ### Done and Closed -/

theorem decRefusal_of_done {d : Dec} (hmode : d.mode = .done) : ∃ r, decRefusal d = some r := by
  rcases hovf : d.ovf
  · exact ⟨_, decRefusal_done hovf hmode⟩
  · exact ⟨_, decRefusal_ovf hovf⟩

/-- In `Done` every operation is refused, so a flight may end and an outcome be reported, and that is all. -/
theorem step_dec_of_done {s s' : State} (h : step s = .next s') (hreset : resetsDec s = false)
    (hmode : s.dec.mode = .done) : ∃ l o, s'.dec = { s.dec with flight := l, outcomes := o } := by
  obtain ⟨r, hr⟩ := decRefusal_of_done hmode
  rcases step_dec_cases_of_locked h hreset (paramsOpen_eq_false_iff.2 (.inl hmode)) with e | ⟨f, hf, e⟩ | ⟨vs, e⟩
  · exact ⟨_, _, e⟩
  · rw [hf.refused hr] at e
    exact ⟨_, _, e⟩
  · rcases vs with _ | ⟨v, vs⟩
    · exact ⟨_, _, e⟩
    · rw [flightStep_refused hr] at e
      exact ⟨_, _, e⟩

theorem sendOp_closed (c : CmdWord) {x : Tx} (hmode : x.mode = .closed) : sendOp c x = reportTx .txClosed x := by
  simp [sendOp, hmode]

theorem closeOp_closed {x : Tx} (hmode : x.mode = .closed) : closeOp x = reportTx .txClosed x := by
  simp [closeOp, hmode]

theorem startSend_closed (c : CmdWord) {x : Tx} (hmode : x.mode = .closed) : startSend c x = reportTx .txClosed x := by
  simp [startSend, hmode]

theorem startClose_closed {x : Tx} (hmode : x.mode = .closed) : startClose x = reportTx .txClosed x := by
  simp [startClose, hmode]

theorem startTx_of_closed (p : Pins) {x : Tx} (hmode : x.mode = .closed) :
    ∃ o, startTx p x = { x with outcomes := o } := by
  unfold startTx
  split
  · exact ⟨_, startSend_closed p.cmdIn hmode⟩
  · split
    · exact ⟨_, startClose_closed hmode⟩
    · exact ⟨_, rfl⟩

/-- A closed endpoint refuses `SEND` and `CLOSE`, so with nothing in flight an outcome may be reported, and that is all. -/
theorem step_tx_of_closed {s s' : State} (h : step s = .next s') (hreset : resetsTx s = false)
    (hmode : s.tx.mode = .closed) (hflight : s.tx.flight = none) : ∃ o, s'.tx = { s.tx with outcomes := o } := by
  rcases step_cases h with ⟨-, htx⟩ | ⟨i, rest, hexec⟩ | ⟨dec, tx, rest, hi, rfl⟩ | ⟨r, v, rest, -, -, -, -, htx, -⟩ |
      ⟨p, rest, hi, rfl⟩
  · exact ⟨_, htx⟩
  · rcases exec_tx_cases hexec with e | ⟨-, ⟨c, e⟩ | e⟩
    · exact ⟨_, e⟩
    · exact ⟨_, e.trans (sendOp_closed c hmode)⟩
    · exact ⟨_, e.trans (closeOp_closed hmode)⟩
  · obtain rfl : tx = false := by simpa [resetsTx, hi] using hreset
    exact ⟨_, rfl⟩
  · exact ⟨_, htx⟩
  · have hrst : p.txRst = false := by simpa [resetsTx, hi] using hreset
    have hclock : clockTx p s.tx = startTx p s.tx := by simp [clockTx, hrst, hflight]
    obtain ⟨o, e⟩ := startTx_of_closed p hmode
    exact ⟨o, by rw [clockCycle_tx, State.withInputs_tx, hclock, e]⟩

/-- Settles O49: a refused operation or cycle changes nothing that the two frames fix. -/
theorem closedAndDoneLastUntilReset : Obligations.ClosedAndDoneLastUntilReset := by
  refine fun s s' h => ⟨fun hreset hmode hflight => ?_, fun hreset hmode => ?_⟩
  · obtain ⟨o, e⟩ := step_tx_of_closed h hreset hmode hflight
    rw [e]
    exact ⟨hmode, hflight, rfl, rfl⟩
  · obtain ⟨l, o, e⟩ := step_dec_of_done h hreset hmode
    rw [e]

end Sys2Proof.Machine
end

section
/-! The family of 20_memory.md: how many records an operation emits (R55, R59), and that operations of the two agents commute
(R63). A byte's count rests on its rising edges, of which eight samples have at most four. -/

namespace Sys2Proof.Machine

/-! ### The emissions of one sample -/

/-- What one `RISE` can emit, or no rising edge: "zero, one or two records" (R55). -/
def IsSampleEmission (l : List Emitted) : Prop :=
  l = [] ∨ (∃ y g, l = [.symbol y g]) ∨ ∃ y g f, l = [.symbol y g, .boundary f]

theorem IsSampleEmission.length_le {l : List Emitted} (h : IsSampleEmission l) : l.length ≤ 2 := by
  obtain rfl | ⟨y, g, rfl⟩ | ⟨y, g, f, rfl⟩ := h <;> simp

theorem isSampleEmission_riseRecords (n g : Nat) (p : Params) (lastRise lastFall t : Nat) :
    IsSampleEmission (groupsOf n g (riseRecords p lastRise lastFall t)).1 := by
  rcases riseRecords_cases p lastRise lastFall t with ⟨-, e⟩ | ⟨-, -, -, e⟩ | ⟨-, -, -, e⟩ <;> rw [e]
  · exact .inr (.inl ⟨_, _, rfl⟩)
  · exact .inr (.inl ⟨_, _, rfl⟩)
  · exact .inr (.inr ⟨_, _, _, rfl⟩)

theorem takeSample_emitted_of_not_rise {v : Bool} {d : Dec} (h : (v && !d.lastLevel) = false) :
    (takeSample v d).emitted = d.emitted := by
  rcases takeSample_cases v d with rfl | ⟨rfl, hlevel⟩ | ⟨rfl, hlevel⟩
  · rw [takeSample_noEdge]
  · rw [takeSample_fall hlevel]
  · simp [hlevel] at h

/-- A sample appends to REC, and something only at a rising edge. -/
theorem takeSample_emits (v : Bool) (d : Dec) :
    ∃ l, (takeSample v d).emitted = d.emitted ++ l ∧ IsSampleEmission l ∧ l.length ≤ 2 * (v && !d.lastLevel).toNat := by
  rcases hrise : v && !d.lastLevel
  · exact ⟨[], by simp [takeSample_emitted_of_not_rise hrise], .inl rfl, Nat.zero_le _⟩
  · obtain ⟨rfl, hlevel⟩ : v = true ∧ d.lastLevel = false := by simpa using hrise
    have hshape := isSampleEmission_riseRecords d.params.group d.grpCnt d.params d.lastRise d.lastFall d.t
    exact ⟨_, by rw [takeSample_rise hlevel], hshape, hshape.length_le⟩

/-! ### The emissions of several samples -/

/-- How many of the samples are rising edges, from the level before them (40_edge_detector.md R101). -/
def risingEdges : Bool → List Bool → Nat
  | _, [] => 0
  | level, v :: vs => (v && !level).toNat + risingEdges v vs

/-- Between two rising edges there is a low sample, so at most every second sample is one, but for the first. -/
theorem risingEdges_le (level : Bool) (vs : List Bool) : 2 * risingEdges level vs ≤ vs.length + (!level).toNat := by
  induction vs generalizing level with
  | nil => simp [risingEdges]
  | cons v vs ih =>
    have hrest := ih v
    have hfirst : 2 * (v && !level).toNat + (!v).toNat ≤ 1 + (!level).toNat := by cases v <;> cases level <;> decide
    rw [risingEdges, List.length_cons]
    omega

/-- Samples one after another emit at most two records a rising edge, wherever a refusal stops them. -/
theorem smpSeq_emits (vs : List Bool) (d : Dec) :
    ∃ l, (smpSeq vs d).2.emitted = d.emitted ++ l ∧ l.length ≤ 2 * risingEdges d.lastLevel vs := by
  induction vs generalizing d with
  | nil => exact ⟨[], by simp [smpSeq], by simp⟩
  | cons v vs ih =>
    rcases hr : decRefusal d with _ | r
    · obtain ⟨l₁, hl₁, -, hlen₁⟩ := takeSample_emits v d
      obtain ⟨l₂, hl₂, hlen₂⟩ := ih (takeSample v d)
      obtain ⟨hlevel, -⟩ := takeSample_frame v d
      rw [hlevel] at hlen₂
      refine ⟨l₁ ++ l₂, by simp [smpSeq, hr, hl₂, hl₁], ?_⟩
      rw [List.length_append, risingEdges]
      omega
    · exact ⟨[], by simp [smpSeq, hr], by simp⟩

/-! ### The emissions of the four operations of DEC -/

theorem smpOp_emits (v : Bool) (d : Dec) : ∃ l, (smpOp v d).2.emitted = d.emitted ++ l ∧ IsSampleEmission l := by
  rcases hr : decRefusal d with _ | r
  · obtain ⟨l, hl, hshape, -⟩ := takeSample_emits v d
    exact ⟨l, by simp [smpOp, hr, hl], hshape⟩
  · exact ⟨[], by simp [(IsDecOp.smp v).refused hr], .inl rfl⟩

theorem eosOp_emits (d : Dec) : ∃ l, (eosOp d).2.emitted = d.emitted ++ l ∧ IsSampleEmission l := by
  rcases hr : decRefusal d with _ | r
  · obtain ⟨l, hl, hshape, -⟩ := takeSample_emits (!d.lastLevel) d
    exact ⟨l, by simp [eosOp, hr, hl], hshape⟩
  · exact ⟨[], by simp [IsDecOp.eos.refused hr], .inl rfl⟩

theorem smpbOp_emits (b : Byte) (d : Dec) : ∃ l, (smpbOp b d).2.emitted = d.emitted ++ l ∧ l.length ≤ 8 := by
  rcases hr : decRefusal d with _ | r
  · obtain ⟨l, hl, hlen⟩ := smpSeq_emits (byteSamples b) d
    have hedges : 2 * risingEdges d.lastLevel (byteSamples b) ≤ 8 + 1 :=
      (risingEdges_le d.lastLevel (byteSamples b)).trans (Nat.add_le_add_left (Bool.toNat_le _) 8)
    exact ⟨l, by simp [smpbOp, hr, hl], by omega⟩
  · exact ⟨[], by simp [(IsDecOp.smpb b).refused hr], by simp⟩

theorem srcerrOp_emitted (d : Dec) : (srcerrOp d).2.emitted = d.emitted := by
  rcases hr : decRefusal d with _ | r
  · simp [srcerrOp, hr]
  · rw [IsDecOp.srcerr.refused hr]

@[simp] theorem reportDec_emitted (r : OpOutcome × Dec) : (reportDec r).emitted = r.2.emitted := rfl

/-- Settles O23: what an operation can do to DEC, and the emissions of each. -/
theorem recordsPerOperation : Obligations.RecordsPerOperation := by
  intro i s s' h
  rcases exec_dec_cases h with ⟨-, e⟩ | ⟨v, rfl, e⟩ | ⟨b, rfl, e⟩ | ⟨rfl, e⟩ | ⟨rfl, e⟩ <;> rw [e]
  · exact ⟨[], by simp, fun _ => .inl rfl, by simp, fun _ => rfl⟩
  · obtain ⟨l, hl, hshape⟩ := smpOp_emits v s.dec
    exact ⟨l, hl, fun _ => hshape, by simp, by simp [decInstr]⟩
  · obtain ⟨l, hl, hlen⟩ := smpbOp_emits b s.dec
    exact ⟨l, hl, by simp, fun _ => hlen, by simp [decInstr]⟩
  · obtain ⟨l, hl, hshape⟩ := eosOp_emits s.dec
    exact ⟨l, hl, fun _ => hshape, by simp, by simp [decInstr]⟩
  · exact ⟨[], by simp [srcerrOp_emitted], fun _ => .inl rfl, by simp, fun _ => rfl⟩

/-! ### Operations of the two agents in either order -/

theorem runOps_cons_of_refused {i : Instr} {s : State} {r : Refusal} (h : exec i s = .refused r) (l : List Instr) :
    runOps (i :: l) s = .refused r := by
  simp [runOps, h]

/-- What a DEC operation answers, a stop included, is the same whatever TX and the encoder's results are. -/
theorem exec_dec_independent {i : Instr} (hi : decInstr i = true) (s : State) :
    (∃ d, ∀ x e, exec i { s with tx := x, enc := e } = .next { s with dec := d, tx := x, enc := e }) ∨
      ∀ x e, exec i { s with tx := x, enc := e } = .refused .agentBusy := by
  obtain ⟨f, hf⟩ := exec_dec hi
  by_cases hflight : s.dec.flight = []
  · obtain ⟨d, -, hany⟩ := exec_dec_answer hi ((hf s).trans (runDec_eq f hflight))
    exact .inl ⟨d, hany⟩
  · exact .inr fun x e => (hf _).trans (runDec_busy f hflight)

/-- What any other operation answers, a stop included, is the same whatever DEC is. -/
theorem exec_other_independent {i : Instr} (hi : decInstr i = false) (s : State) :
    (∃ x e, ∀ d, exec i { s with dec := d } = .next { s with dec := d, tx := x, enc := e }) ∨
      ∀ d, exec i { s with dec := d } = .refused .agentBusy := by
  rcases exec_tx hi with ⟨f, hf⟩ | ⟨w, hw⟩
  · by_cases hflight : s.tx.flight = none
    · obtain ⟨x, e, -, hany⟩ := exec_other_answer hi ((hf s).trans (runTx_eq f hflight))
      exact .inl ⟨x, e, hany⟩
    · exact .inr fun d => (hf _).trans (runTx_busy f hflight)
  · obtain ⟨x, e, -, hany⟩ := exec_other_answer hi (hw s)
    exact .inl ⟨x, e, hany⟩

/-- Settles O34: each operation answers as if the other one had not been there (decision D21); where one stops, both orders stop
with the one reason that an operation has. -/
theorem agentsCommute : Obligations.AgentsCommute := by
  intro i j s hi hj
  rcases exec_dec_independent hi s with ⟨d, hdec⟩ | hdec <;>
    rcases exec_other_independent hj s with ⟨x, e, hother⟩ | hother
  · calc runOps [i, j] s
        = exec j { s with dec := d } := by rw [runOps_cons_of_next (hdec s.tx s.enc), runOps_singleton]
      _ = .next { s with dec := d, tx := x, enc := e } := hother d
      _ = exec i { s with tx := x, enc := e } := (hdec x e).symm
      _ = runOps [j, i] s := by rw [runOps_cons_of_next (hother s.dec), runOps_singleton]
  · calc runOps [i, j] s
        = exec j { s with dec := d } := by rw [runOps_cons_of_next (hdec s.tx s.enc), runOps_singleton]
      _ = .refused .agentBusy := hother d
      _ = runOps [j, i] s := (runOps_cons_of_refused (hother s.dec) [i]).symm
  · calc runOps [i, j] s
        = .refused .agentBusy := runOps_cons_of_refused (hdec s.tx s.enc) [j]
      _ = exec i { s with tx := x, enc := e } := (hdec x e).symm
      _ = runOps [j, i] s := by rw [runOps_cons_of_next (hother s.dec), runOps_singleton]
  · exact (runOps_cons_of_refused (hdec s.tx s.enc) [j]).trans (runOps_cons_of_refused (hother s.dec) [i]).symm

end Sys2Proof.Machine
end

section
/-! The family of 30_encoding.md, the bits. A wire word has one reading, since its tag selects the row and the packing of its
fields is the word (R76, R82); a Command's bytes follow from the packing (R77 to R80). -/

namespace Sys2Proof.Machine

/-! ### The fields of a packed word -/

theorem fields_packCommand (tag : BitVec 3) (k : BitVec 5) (r : BitVec 8) (p : BitVec 13) (d : BitVec 35) :
    (packCommand tag k r p d).extractLsb' 56 5 = k ∧ (packCommand tag k r p d).extractLsb' 48 8 = r ∧
    (packCommand tag k r p d).extractLsb' 35 13 = p ∧ (packCommand tag k r p d).extractLsb' 0 35 = d := by
  simp (disch := decide) only [packCommand, BitVec.extractLsb'_append_eq_of_le, BitVec.extractLsb'_append_eq_of_add_le,
    Nat.reduceSub, BitVec.extractLsb'_eq_self, and_self]

/-! ### The readings of a wire word -/

/-- The row of a Command word by its mode (R172 to R174). -/
def commandInstr : Parts → BitVec 5 → BitVec 8 → BitVec 13 → BitVec 35 → Instr
  | .preamble => .cmdPreamble
  | .data => .cmdData
  | .all => .cmdAll

theorem encode_commandInstr (parts : Parts) (k : BitVec 5) (r : BitVec 8) (p : BitVec 13) (d : BitVec 35) :
    encode (commandInstr parts k r p d) = .wire (packCommand (partsTag parts) k r p d) := by
  cases parts <;> rfl

theorem isCommand_iff {w : CmdWord} : isCommand w = true ↔ ∃ parts, wordTag w = partsTag parts := by
  constructor
  · intro h
    obtain (h | h) | h : (wordTag w = 0b101#3 ∨ wordTag w = 0b110#3) ∨ wordTag w = 0b111#3 := by
      simpa [isCommand] using h
    · exact ⟨.data, h⟩
    · exact ⟨.preamble, h⟩
    · exact ⟨.all, h⟩
  · rintro ⟨parts, h⟩
    cases parts <;> simp [isCommand, h, partsTag]

/-- The sentinel's tag is `0b000` (R82). -/
theorem ne_zero_of_isCommand {w : CmdWord} (h : isCommand w = true) : w ≠ 0#64 := by
  rintro rfl
  exact absurd h (by decide)

theorem decodeWire_command {w : CmdWord} {parts : Parts} (h : wordTag w = partsTag parts) :
    decodeWire w = .instr (commandInstr parts (w.extractLsb' 56 5) (w.extractLsb' 48 8) (w.extractLsb' 35 13)
      (w.extractLsb' 0 35)) := by
  have hne : w ≠ 0#64 := ne_zero_of_isCommand (isCommand_iff.2 ⟨parts, h⟩)
  cases parts <;> simp [decodeWire, hne, h, partsTag, commandInstr]

theorem decodeWire_reserved {w : CmdWord} (hne : w ≠ 0#64) (h : isCommand w = false) :
    decodeWire w = .reject .reservedTag := by
  obtain ⟨⟨h101, h110⟩, h111⟩ : (wordTag w ≠ 0b101#3 ∧ wordTag w ≠ 0b110#3) ∧ wordTag w ≠ 0b111#3 := by
    simpa [isCommand] using h
  simp [decodeWire, hne, h101, h110, h111]

/-- The three readings of a wire word: the sentinel, a Command by its mode, a reserved tag. -/
theorem decodeWire_cases (w : CmdWord) :
    (w = 0#64 ∧ decodeWire w = .instr .cmdEnd) ∨
    (∃ parts, wordTag w = partsTag parts ∧ decodeWire w = .instr (commandInstr parts (w.extractLsb' 56 5)
      (w.extractLsb' 48 8) (w.extractLsb' 35 13) (w.extractLsb' 0 35))) ∨
    (w ≠ 0#64 ∧ isCommand w = false ∧ decodeWire w = .reject .reservedTag) := by
  by_cases hzero : w = 0#64
  · exact .inl ⟨hzero, by simp [decodeWire, hzero]⟩
  · rcases hcmd : isCommand w
    · exact .inr (.inr ⟨hzero, rfl, decodeWire_reserved hzero hcmd⟩)
    · obtain ⟨parts, htag⟩ := isCommand_iff.1 hcmd
      exact .inr (.inl ⟨parts, htag, decodeWire_command htag⟩)

theorem decode_encode_commandInstr (parts : Parts) (k : BitVec 5) (r : BitVec 8) (p : BitVec 13) (d : BitVec 35) :
    decode (encode (commandInstr parts k r p d)) = .instr (commandInstr parts k r p d) := by
  obtain ⟨hskip, hrep, hpre, hdata⟩ := fields_packCommand (partsTag parts) k r p d
  rw [encode_commandInstr, decode, decodeWire_command (wordTag_packCommand ..), hskip, hrep, hpre, hdata]

theorem decodeParts_encodeParts (parts : Parts) : decodeParts (encodeParts parts) = some parts := by
  cases parts <;> rfl

theorem decodeEnc_encodeParts (i : SendInstr) :
    decodeEnc ⟨encodeParts i.parts, i.skip, i.rep, i.preamble, i.data⟩ = .instr (.enc i) := by
  simp [decodeEnc, decodeParts_encodeParts]

/-- Settles O35: a Command word by its fields, every other row by its selector. -/
theorem decodeOfEncode : Obligations.DecodeOfEncode := by
  intro i
  cases i with
  | cmdPreamble k r p d => exact decode_encode_commandInstr .preamble k r p d
  | cmdData k r p d => exact decode_encode_commandInstr .data k r p d
  | cmdAll k r p d => exact decode_encode_commandInstr .all k r p d
  | smp v => cases v <;> rfl
  | enc i => exact decodeEnc_encodeParts i
  | cmdEnd | smpb b | eos | srcerr | send c | close => rfl

theorem encode_of_decodeWire {w : CmdWord} {i : Instr} (h : decodeWire w = .instr i) : encode i = .wire w := by
  rcases decodeWire_cases w with ⟨rfl, e⟩ | ⟨parts, htag, e⟩ | ⟨-, -, e⟩ <;> rw [e] at h <;> cases h
  · rfl
  · rw [encode_commandInstr, ← htag, packCommand_fields]

/-- Settles O36: the three readings of a wire word exclude each other. -/
theorem wireWordsHaveOneReading : Obligations.WireWordsHaveOneReading := by
  refine ⟨fun w i h => encode_of_decodeWire h, fun w => ⟨fun h => ?_, fun ⟨hne, hcmd⟩ => decodeWire_reserved hne hcmd⟩⟩
  rcases decodeWire_cases w with ⟨-, e⟩ | ⟨parts, -, e⟩ | ⟨hne, hcmd, -⟩
  · exact absurd (h.symm.trans e) (by simp)
  · exact absurd (h.symm.trans e) (by simp)
  · exact ⟨hne, hcmd⟩

/-- Settles O40: each word is written out, so the decoder computes its reading. -/
theorem concreteWordsDecode : Obligations.ConcreteWordsDecode :=
  ⟨rfl, rfl, rfl, rfl, rfl, rfl, rfl, rfl, rfl, rfl, rfl⟩

/-! ### The encoder's image -/

/-- Operands for which the encoder gives a packed word: its fields, extended with zeros. -/
def unpackedInstr (parts : Parts) (k : BitVec 5) (r : BitVec 8) (p : BitVec 13) (d : BitVec 35) : SendInstr :=
  ⟨parts, k.setWidth 8, r, p.setWidth 16, d.setWidth 64⟩

theorem encWord_unpackedInstr (parts : Parts) (k : BitVec 5) (r : BitVec 8) (p : BitVec 13) (d : BitVec 35) :
    encWord (unpackedInstr parts k r p d) = packCommand (partsTag parts) k r p d := by
  simp (disch := decide) only [encWord_eq, unpackedInstr, BitVec.extractLsb'_setWidth_of_le, BitVec.extractLsb'_eq_self]

/-- The header byte of a word is its tag above five more bits. -/
theorem commandByte_zero_div (w : CmdWord) : (commandByte w 0).toNat / 32 = (wordTag w).toNat := by
  simp only [commandByte, wordTag, BitVec.extractLsb'_toNat, Nat.shiftRight_eq_div_pow]
  omega

theorem le_commandByte_zero {w : CmdWord} (h : isCommand w = true) : 0xA0#8 ≤ commandByte w 0 := by
  obtain ⟨parts, htag⟩ := isCommand_iff.1 h
  have hdiv := commandByte_zero_div w
  have hlow : 5 ≤ (partsTag parts).toNat := by cases parts <;> decide
  rw [htag] at hdiv
  rw [BitVec.le_def]
  show 160 ≤ (commandByte w 0).toNat
  omega

/-- Settles O6: a Command is the packing of its own fields, and its tag is at least `0b101`. -/
theorem encoderImageIsTheCommands : Obligations.EncoderImageIsTheCommands := by
  refine ⟨fun w => ⟨fun h => ?_, ?_⟩, fun w h => ⟨le_commandByte_zero h, ne_zero_of_isCommand h⟩⟩
  · obtain ⟨parts, htag⟩ := isCommand_iff.1 h
    exact ⟨_, (encWord_unpackedInstr parts _ _ _ _).trans (htag ▸ packCommand_fields w)⟩
  · rintro ⟨i, rfl⟩
    exact isCommand_encWord i

/-! ### The bytes of an encoded Command -/

theorem commandByte_encWord_zero (i : SendInstr) : commandByte (encWord i) 0 = headerByte (partsTag i.parts) i.skip := by
  simp (disch := decide) only [encWord, assembleCommand, commandByte, Nat.mul_zero, Nat.sub_zero,
    BitVec.extractLsb'_append_eq_of_le, Nat.reduceSub, BitVec.extractLsb'_eq_self]

theorem commandByte_encWord_one (i : SendInstr) : commandByte (encWord i) 1 = i.rep := by
  simp (disch := decide) only [encWord, assembleCommand, commandByte, Nat.mul_one,
    BitVec.extractLsb'_append_eq_of_le, BitVec.extractLsb'_append_eq_of_add_le, Nat.reduceSub, BitVec.extractLsb'_eq_self]

/-- Bytes 2 to 7 are the body, big-endian (R79). -/
theorem commandByte_encWord_body (i : SendInstr) {n : Nat} (hn : n ≤ 5) :
    commandByte (encWord i) (2 + n) = (commandBody i.preamble i.data).extractLsb' (40 - 8 * n) 8 := by
  have hindex : 56 - 8 * (2 + n) = 40 - 8 * n := by omega
  rw [commandByte, hindex]
  exact BitVec.extractLsb'_append_eq_of_add_le (by omega)

theorem headerByte_tag (tag : BitVec 3) (skip : BitVec 8) : (headerByte tag skip).extractLsb' 5 3 = tag := by
  simp (disch := decide) only [headerByte_eq, BitVec.extractLsb'_append_eq_of_le, Nat.reduceSub, BitVec.extractLsb'_eq_self]

theorem headerByte_skip5 (tag : BitVec 3) (skip : BitVec 8) :
    (headerByte tag skip).extractLsb' 0 5 = skip.extractLsb' 0 5 := by
  simp (disch := decide) only [headerByte_eq, BitVec.extractLsb'_append_eq_of_add_le, BitVec.extractLsb'_eq_self]

/-- The mask `0x1F` keeps the low five bits. -/
theorem skip5_mask (skip : BitVec 8) : (skip &&& 0x1F#8).extractLsb' 0 5 = skip.extractLsb' 0 5 := by
  rw [BitVec.extractLsb'_and]
  exact BitVec.and_allOnes

/-- Settles O2: the word is the header byte, the repeat byte and the body, one after another. -/
theorem encodedBytesFollowLayout : Obligations.EncodedBytesFollowLayout := by
  intro i
  refine ⟨commandByte_encWord_zero i, ?_, ?_, commandByte_encWord_one i, fun n hn => commandByte_encWord_body i hn⟩
  · rw [commandByte_encWord_zero, headerByte_tag]
  · rw [commandByte_encWord_zero, headerByte_skip5, skip5_mask]

theorem wordTag_encWord (i : SendInstr) : wordTag (encWord i) = partsTag i.parts := by
  rw [encWord_eq, wordTag_packCommand]

/-- Settles O3: the tag of an encoded word is its mode's, and the header byte is that tag above `skip5`. -/
theorem modeTagsAreTheThree : Obligations.ModeTagsAreTheThree := by
  refine ⟨rfl, rfl, rfl, fun i hskip => ?_, fun i => ?_, fun p => by cases p <;> decide⟩
  · rw [commandByte_encWord_zero, headerByte_eq, hskip]
    cases i.parts <;> rfl
  · rw [wordTag_encWord]
    cases i.parts <;> decide

end Sys2Proof.Machine
end

section
/-! The family of 30_encoding.md, presentations at transaction level: what one that is no operation gets (R84, R89, R90, R92),
and which bytes an operation puts on SINK (R81, R82, R93). -/

namespace Sys2Proof.Machine

/-! ### Presentations that are no operation -/

theorem present_reject {p : Presented} {r : Reject} (h : decode p = .reject r) (s : State) :
    present p s = noOperation p s := by
  simp [present, h]

theorem step_reject {s : State} {p : Presented} {r : Reject} {rest : List Input} (hs : s.inputs = .op p :: rest)
    (h : decode p = .reject r) : step s = noOperation p (s.withInputs rest) := by
  rw [step_op hs, present_reject h]

theorem decodeDec_idle {op : BitVec 3} (h : op = 0b000#3 ∨ op = 0b101#3 ∨ op = 0b110#3 ∨ op = 0b111#3) (bit : BitVec 1)
    (byte : Byte) : ∃ r, decodeDec op bit byte = .reject r := by
  obtain rfl | rfl | rfl | rfl := h <;> exact ⟨_, rfl⟩

theorem decodeTx_idle {op : BitVec 2} (h : op = 0b00#2 ∨ op = 0b11#2) (cmd : CmdWord) :
    ∃ r, decodeTx op cmd = .reject r := by
  obtain rfl | rfl := h <;> exact ⟨_, rfl⟩

/-- Settles O38: an idle or reserved selector is rejected, and a rejected selection holds the state. -/
theorem idleSelectionsChangeNothing : Obligations.IdleSelectionsChangeNothing := by
  refine ⟨fun s hs => by simp [step, hs], fun op bit byte rest s hop hs => ?_, fun op cmd rest s hop hs => ?_⟩
  · obtain ⟨r, hr⟩ := decodeDec_idle hop bit byte
    exact step_reject hs hr
  · obtain ⟨r, hr⟩ := decodeTx_idle hop cmd
    exact step_reject hs hr

/-- The encoder's word for any value of its port (R89). -/
theorem encPortWord_eq (e : EncPort) :
    encPortWord e = packCommand (1#1 ++ e.parts) (e.skip.extractLsb' 0 5) e.rep (e.preamble.extractLsb' 0 13)
      (e.data.extractLsb' 0 35) :=
  assembleCommand_eq ..

theorem decodeEnc_partsZero {e : EncPort} (h : e.parts = 0b00#2) : decodeEnc e = .reject .partsZero := by
  simp [decodeEnc, decodeParts, h]

theorem step_enc_partsZero {e : EncPort} {rest : List Input} {s : State} (h : e.parts = 0b00#2)
    (hs : s.inputs = .op (.enc e) :: rest) :
    step s = .next { s with inputs := rest, enc := ⟨s.enc.returned ++
      [packCommand 0b100#3 (e.skip.extractLsb' 0 5) e.rep (e.preamble.extractLsb' 0 13) (e.data.extractLsb' 0 35)]⟩ } := by
  have hword := encPortWord_eq e
  rw [h] at hword
  calc step s = .next ((s.withInputs rest).withEncResult (encPortWord e)) := step_reject hs (decodeEnc_partsZero h)
    _ = _ := by rw [hword]; rfl

theorem isCommand_of_reservedTag {w : CmdWord} (h : w.extractLsb' 61 3 = 0b000#3 ∨ w.extractLsb' 61 3 = 0b001#3 ∨
    w.extractLsb' 61 3 = 0b010#3 ∨ w.extractLsb' 61 3 = 0b011#3 ∨ w.extractLsb' 61 3 = 0b100#3) : isCommand w = false := by
  obtain h | h | h | h | h := h <;> simp [isCommand, wordTag, h]

theorem sendOp_badCommand {c : CmdWord} {x : Tx} (hmode : x.mode = .opened) (hc : isCommand c = false) :
    sendOp c x = reportTx .badCommand x := by
  simp [sendOp, hmode, hc]

/-- A word with a reserved tag goes to `SEND` (log entry 3). -/
theorem step_wire_reserved {w : CmdWord} {rest : List Input} {s : State} (hne : w ≠ 0#64) (hw : isCommand w = false)
    (hs : s.inputs = .op (.wire w) :: rest) : step s = runTx (sendOp w) (s.withInputs rest) :=
  step_reject hs (decodeWire_reserved hne hw)

/-- Settles O39: both presentations are rejected; the encoder drives its word all the same, `SEND` refuses the wire word. -/
theorem nonOperationsGetTheirAnswer : Obligations.NonOperationsGetTheirAnswer := by
  refine ⟨fun e rest s hparts hs => step_enc_partsZero hparts hs, fun w rest s hne htag hs => ?_⟩
  have hw := isCommand_of_reservedTag htag
  rw [step_wire_reserved hne hw hs]
  refine ⟨fun hflight hmode => ?_, fun hflight hmode => ?_, fun hflight => runTx_busy _ hflight⟩
  · rw [runTx_eq _ (s := s.withInputs rest) hflight, State.withInputs_tx, sendOp_badCommand hmode hw]
    rfl
  · rw [runTx_eq _ (s := s.withInputs rest) hflight, State.withInputs_tx, sendOp_closed w hmode]
    rfl

/-! ### A Command from the encoder on its way to the sink -/

/-- The bytes of an encoded Command by the operands (R76, R93, R166). -/
theorem commandBytes_encWord (i : SendInstr) :
    commandBytes (encWord i) = [partsTag i.parts ++ (i.skip.extractLsb' 0 5 : BitVec 5), i.rep, i.preamble.extractLsb' 5 8,
      (i.preamble.extractLsb' 0 5 : BitVec 5) ++ (i.data.extractLsb' 32 3 : BitVec 3), i.data.extractLsb' 24 8,
      i.data.extractLsb' 16 8, i.data.extractLsb' 8 8, i.data.extractLsb' 0 8] := by
  rw [encWord_eq, commandBytes_packCommand]
  simp (disch := decide) only [BitVec.extractLsb'_extractLsb'_of_le]

/-- The endpoint with the sink's answer given for one coming write (log entry 29). -/
def Tx.answering (x : Tx) (k : Fin 9) : Tx := { x with answers := [.takes k] }

theorem writeBlock_answering (w : CmdWord) (k : Fin 9) (x : Tx) :
    { writeBlock w (x.answering k) with answers := x.answers } =
      reportTx (sinkOutcome k) { x with sink := x.sink ++ (commandBytes w).take k.val } := by
  rw [writeBlock_takes (x := x.answering k) (k := k) (rest := []) rfl]
  rfl

theorem sendOp_answering_open {c : CmdWord} (k : Fin 9) {x : Tx} (hmode : x.mode = .opened) (hc : isCommand c = true) :
    { sendOp c (x.answering k) with answers := x.answers } =
      reportTx (sinkOutcome k) { x with sink := x.sink ++ (commandBytes c).take k.val } := by
  rw [sendOp_open (x := x.answering k) hmode hc, writeBlock_answering]

theorem sendOp_answering_closed (c : CmdWord) (k : Fin 9) {x : Tx} (hmode : x.mode = .closed) :
    { sendOp c (x.answering k) with answers := x.answers } = reportTx .txClosed x := by
  rw [sendOp_closed c (x := x.answering k) hmode]
  rfl

theorem withSinkAnswer_of_next {i : Instr} {k : Fin 9} {s s' : State}
    (h : exec i (s.withTx (s.tx.answering k)) = .next s') :
    withSinkAnswer k i s = .next (s'.withTx { s'.tx with answers := s.tx.answers }) := by
  rw [withSinkAnswer, ← Tx.answering, h]

/-- A `SEND` line of R95 runs `sendOp` with the line's own answer. -/
theorem runLine_sendEncoded (i : SendInstr) (k : Fin 9) {s : State} (hflight : s.tx.flight = none) :
    runLine (sendEncoded i k) s =
      .next { s with tx := { sendOp (encWord i) (s.tx.answering k) with answers := s.tx.answers } } :=
  withSinkAnswer_of_next (i := .send (encWord i)) (runTx_eq (sendOp (encWord i)) (s := s.withTx (s.tx.answering k)) hflight)

/-- Settles O25: what `ENC` returns is a Command, so an open endpoint writes its bytes. -/
theorem encodedCommandReachesSink : Obligations.EncodedCommandReachesSink := by
  intro i k s hflight tag bytes
  have htag : tag = partsTag i.parts := by simp only [tag]; cases i.parts <;> rfl
  have hbytes : commandBytes (encWord i) = bytes := by rw [commandBytes_encWord, ← htag]
  rw [runLine_sendEncoded i k hflight, ← hbytes]
  refine ⟨fun hmode => ?_, fun hmode => ?_⟩
  · rw [sendOp_answering_open k hmode (isCommand_encWord i)]
    rfl
  · rw [sendOp_answering_closed (encWord i) k hmode]
    rfl

/-! ### What an operation puts on SINK -/

theorem writeBlock_sink (w : CmdWord) (x : Tx) : ∃ k, (writeBlock w x).sink = x.sink ++ (commandBytes w).take k := by
  obtain ⟨-, -, ⟨k, hsink, -⟩ | ⟨k, hsink, -⟩⟩ := writeBlock_cases w x
  · exact ⟨k.val, hsink⟩
  · exact ⟨k.val, hsink⟩

/-- The first byte of a Command is not zero, so the eight zero bytes are no part of one (R82). -/
theorem take_commandBytes_ne_zeros {c : CmdWord} (hc : isCommand c = true) (k : Nat) :
    (commandBytes c).take k ≠ List.replicate 8 0#8 := by
  intro h
  have hfirst : commandByte c 0 = 0#8 := by
    rcases k with _ | k
    · simp at h
    · exact (List.cons.inj h).1
  have hle := le_commandByte_zero hc
  rw [hfirst] at hle
  exact absurd hle (by decide)

theorem sendOp_sink (c : CmdWord) (x : Tx) :
    ∃ l, (sendOp c x).sink = x.sink ++ l ∧ l.length ≤ 8 ∧ l ≠ List.replicate 8 0#8 := by
  rcases sendOp_cases c x with ⟨-, e⟩ | ⟨-, -, e⟩ | ⟨-, hc, e⟩ <;> rw [e]
  · exact ⟨[], by simp, by simp, by simp⟩
  · exact ⟨[], by simp, by simp, by simp⟩
  · obtain ⟨k, hsink⟩ := writeBlock_sink c x
    exact ⟨_, hsink, by simp, take_commandBytes_ne_zeros hc k⟩

theorem closeOp_sink (x : Tx) : ∃ l, (closeOp x).sink = x.sink ++ l ∧ l.length ≤ 8 := by
  rcases closeOp_cases x with ⟨-, e⟩ | ⟨-, e⟩ <;> rw [e]
  · exact ⟨[], by simp, by simp⟩
  · obtain ⟨k, hsink⟩ := writeBlock_sink sentinel { x with mode := .closed }
    exact ⟨_, hsink, by simp⟩

/-- What an operation of the endpoint does to it: only `CLOSE` and the sentinel's own wire word do `closeOp`. -/
inductive IsTxOp : Instr → (Tx → Tx) → Prop
  | send {i : Instr} (c : CmdWord) : IsTxOp i (sendOp c)
  | close : IsTxOp .close closeOp
  | cmdEnd : IsTxOp .cmdEnd closeOp

theorem exec_isTxOp {i : Instr} (hi : decInstr i = false) (henc : ∀ x, i ≠ .enc x) :
    ∃ f, IsTxOp i f ∧ ∀ s, exec i s = runTx f s := by
  cases i <;> simp only [decInstr, Bool.true_eq_false] at hi
  case enc x => exact absurd rfl (henc x)
  case close => exact ⟨_, .close, fun _ => rfl⟩
  case cmdEnd => exact ⟨_, .cmdEnd, fun _ => rfl⟩
  all_goals exact ⟨_, .send _, fun _ => rfl⟩

theorem exec_tx_of_other {i : Instr} {s s' : State} (h : exec i s = .next s')
    (hi : decInstr i = true ∨ ∃ x, i = .enc x) : s'.tx = s.tx := by
  obtain hi | ⟨x, rfl⟩ := hi
  · obtain ⟨d, rfl, -⟩ := exec_dec_answer hi h
    rfl
  · cases h
    rfl

theorem IsTxOp.sink {i : Instr} {f : Tx → Tx} (hf : IsTxOp i f) (x : Tx) :
    ∃ l, (f x).sink = x.sink ++ l ∧ l.length ≤ 8 ∧ (l = List.replicate 8 0#8 → i = .close ∨ i = .cmdEnd) := by
  cases hf with
  | send c =>
    obtain ⟨l, hl, hlen, hne⟩ := sendOp_sink c x
    exact ⟨l, hl, hlen, fun hzeros => absurd hzeros hne⟩
  | close =>
    obtain ⟨l, hl, hlen⟩ := closeOp_sink x
    exact ⟨l, hl, hlen, fun _ => .inl rfl⟩
  | cmdEnd =>
    obtain ⟨l, hl, hlen⟩ := closeOp_sink x
    exact ⟨l, hl, hlen, fun _ => .inr rfl⟩

/-- Settles O50: by what the endpoint's operations append, and that no other operation writes to TX. -/
theorem onlyCloseWritesSentinel : Obligations.OnlyCloseWritesSentinel := by
  intro i s s' h
  by_cases hother : decInstr i = true ∨ ∃ x, i = .enc x
  · exact ⟨[], by simp [exec_tx_of_other h hother], by simp, by simp, fun _ => rfl, fun _ => rfl⟩
  · obtain ⟨hi, henc⟩ := not_or.1 hother
    obtain ⟨f, hf, hexec⟩ := exec_isTxOp (Bool.eq_false_iff.2 hi) (not_exists.1 henc)
    rw [hexec] at h
    obtain ⟨-, rfl⟩ := runTx_inv h
    obtain ⟨l, hl, hlen, hzeros⟩ := hf.sink s.tx
    exact ⟨l, hl, hlen, hzeros, fun h => absurd h hi, fun h => absurd h henc⟩

end Sys2Proof.Machine
end

section
/-! The family of 30_encoding.md, one cycle of the port form (R88 to R93): how the parameter pins meet the registers, what
`dec_op` does in its cycle, and what the output pins show of a cycle. -/

namespace Sys2Proof.Machine

/-! ### The parameter pins -/

theorem Params.wf_iff {q : Params} : q.wf = true ↔ 1 ≤ q.group ∧ q.group ≤ 255 := by
  simp [Params.wf]

theorem driveParams_undriven {p : Pins} (h : p.params = none) (d : Dec) : driveParams p d = d := by
  simp [driveParams, h]

/-- The pins write the parameter registers and nothing else. -/
theorem driveParams_frame (p : Pins) (d : Dec) : ∃ q, driveParams p d = { d with params := q } := by
  rcases driveParams_cases p d with e | ⟨q, -, -, -, -, e⟩
  · exact ⟨d.params, e⟩
  · exact ⟨q, e⟩

theorem step_clock {s : State} {p : Pins} {rest : List Input} (h : s.inputs = .clock p :: rest) :
    step s = runClock p (s.withInputs rest) := by
  simp [step, h, runInput]

theorem runClock_accepted {p : Pins} {s : State} (h : paramPinsRefusal p s.dec = none) :
    runClock p s = .next (clockCycle p s) := by
  simp [runClock, h]

theorem runClock_refused {p : Pins} {s : State} {r : Refusal} (h : paramPinsRefusal p s.dec = some r) :
    runClock p s = .refused r := by
  simp [runClock, h]

theorem paramPinsRefusal_undriven {p : Pins} (h : p.params = none) (d : Dec) : paramPinsRefusal p d = none := by
  simp [paramPinsRefusal, h]

/-- In a cycle that takes the values, GROUP is checked before the widths. -/
theorem paramPinsRefusal_taking {p : Pins} {q : Params} {d : Dec} (hq : p.params = some q)
    (h : p.decRst = true ∨ paramsOpen d = true) :
    paramPinsRefusal p d =
      if q.wf then if paramsFit d.timeWidth q then none else some .paramTooWide else some .groupIllegal := by
  have htaking : (p.decRst || paramsOpen d) = true := by simpa using h
  simp [paramPinsRefusal, hq, htaking]

theorem paramPinsRefusal_locked {p : Pins} {q : Params} {d : Dec} (hq : p.params = some q) (hrst : p.decRst = false)
    (h : paramsOpen d = false) : paramPinsRefusal p d = if q = d.params then none else some .paramsLocked := by
  simp [paramPinsRefusal, hq, hrst, h]

theorem step_clock_taking {p : Pins} {q : Params} {rest : List Input} {s : State} (hs : s.inputs = .clock p :: rest)
    (hq : p.params = some q) (h : p.decRst = true ∨ paramsOpen s.dec = true) :
    (1 ≤ q.group ∧ q.group ≤ 255 → timesWithin s.dec.timeWidth q →
      step s = .next (clockCycle p (s.withInputs rest))) ∧
    (q.group = 0 ∨ 255 < q.group → step s = .refused .groupIllegal) ∧
    (1 ≤ q.group ∧ q.group ≤ 255 → ¬ timesWithin s.dec.timeWidth q → step s = .refused .paramTooWide) := by
  have hpins := paramPinsRefusal_taking (d := (s.withInputs rest).dec) hq h
  rw [step_clock hs]
  simp only [← Params.wf_iff, ← paramsFit_iff_timesWithin]
  refine ⟨fun hwf hfit => runClock_accepted ?_, fun hgroup => runClock_refused ?_, fun hwf hwide => runClock_refused ?_⟩
  · simpa [hwf, hfit] using hpins
  · have hwf : ¬ q.wf = true := fun hwf => by
      have hrange := Params.wf_iff.1 hwf
      omega
    simpa [hwf] using hpins
  · simpa [hwf, hwide] using hpins

theorem step_clock_locked {p : Pins} {q : Params} {rest : List Input} {s : State} (hs : s.inputs = .clock p :: rest)
    (hq : p.params = some q) (hrst : p.decRst = false) (h : paramsOpen s.dec = false) :
    (q = s.dec.params → step s = .next (clockCycle p (s.withInputs rest))) ∧
    (q ≠ s.dec.params → step s = .refused .paramsLocked) := by
  have hpins := paramPinsRefusal_locked (d := (s.withInputs rest).dec) hq hrst h
  rw [step_clock hs]
  exact ⟨fun hsame => runClock_accepted (hpins.trans (if_pos hsame)),
    fun hother => runClock_refused (hpins.trans (if_neg hother))⟩

/-- Settles O53: the pins are taken where the registers may be written, compared with them otherwise, and checked alike. -/
theorem portParametersAreTakenAtStart : Obligations.PortParametersAreTakenAtStart := by
  refine ⟨fun p d h => driveParams_undriven h d, fun p q d hq => ⟨fun hmode ht hlow hhigh htimes => ?_, fun h => ?_⟩,
    fun p rest s hs => ⟨fun h => ?_, fun q hq => ⟨fun h => ?_, fun hrst h => ?_⟩⟩⟩
  · exact driveParams_open hq (paramsOpen_iff.2 ⟨hmode, ht⟩) (Params.wf_iff.2 ⟨hlow, hhigh⟩)
      (paramsFit_iff_timesWithin.2 htimes)
  · exact driveParams_locked p (paramsOpen_eq_false_iff.2 h)
  · rw [step_clock hs]
    exact runClock_accepted (paramPinsRefusal_undriven h _)
  · exact step_clock_taking hs hq (h.imp_right paramsOpen_iff.2)
  · exact step_clock_locked hs hq hrst (paramsOpen_eq_false_iff.2 h)

/-! ### The operation that `dec_op` selects -/

theorem clockDec_eq {p : Pins} (hrst : p.decRst = false) (d : Dec) : clockDec p d = advanceDec p (driveParams p d) := by
  simp [clockDec, hrst]

theorem advanceDec_idle (p : Pins) {d : Dec} (hflight : d.flight = []) : advanceDec p d = startDec p d := by
  simp [advanceDec, hflight]

theorem driveParams_flight (p : Pins) (d : Dec) : (driveParams p d).flight = d.flight := by
  obtain ⟨q, e⟩ := driveParams_frame p d
  rw [e]

theorem startDec_smp {p : Pins} (h : p.decOp = 0b001#3) (d : Dec) :
    startDec p d = reportDec (smpOp (p.smpBit.getLsbD 0) d) := by
  simp [startDec, h]

theorem startDec_smpb {p : Pins} (h : p.decOp = 0b010#3) (d : Dec) :
    startDec p d = flightStep (byteSamples p.smpByte) d := by
  simp [startDec, h]

theorem startDec_eos {p : Pins} (h : p.decOp = 0b011#3) (d : Dec) : startDec p d = reportDec (eosOp d) := by
  simp [startDec, h]

theorem startDec_srcerr {p : Pins} (h : p.decOp = 0b100#3) (d : Dec) : startDec p d = reportDec (srcerrOp d) := by
  simp [startDec, h]

theorem startDec_none {p : Pins} (h : p.decOp = 0b000#3 ∨ p.decOp = 0b101#3 ∨ p.decOp = 0b110#3 ∨ p.decOp = 0b111#3)
    (d : Dec) : startDec p d = d := by
  obtain h | h | h | h := h <;> simp [startDec, h]

/-- Settles O52: with nothing in flight a cycle starts the selected operation, and one that is not `SMPB` ends in it. -/
theorem portCycleIsTheOperation : Obligations.PortCycleIsTheOperation := by
  intro p s hrst hflight s₀
  have hidle : s₀.dec.flight = [] := (driveParams_flight p s.dec).trans hflight
  have hcycle : (clockCycle p s).dec = startDec p s₀.dec := (clockDec_eq hrst s.dec).trans (advanceDec_idle p hidle)
  have hrun : ∀ f, runDec f s₀ = .next { s with dec := reportDec (f s₀.dec) } := fun f => runDec_eq f hidle
  rw [hcycle]
  refine ⟨fun hop => ?_, fun hop => ?_, fun hop => ?_, fun hop => startDec_none hop _⟩
  · rw [startDec_smp hop]
    exact hrun _
  · rw [startDec_eos hop]
    exact hrun _
  · rw [startDec_srcerr hop]
    exact hrun _

/-! ### What a cycle appends to the histories of DEC -/

/-- What one cycle does to agent DEC by the operation, where `advanceDec_cases` leaves it open whether a whole byte was taken:
nothing, an operation of one sample at most that ends in it, or one sample of a byte. -/
theorem advanceDec_eq_cases (p : Pins) (d : Dec) :
    advanceDec p d = d ∨ (∃ v, advanceDec p d = reportDec (smpOp v d)) ∨ advanceDec p d = reportDec (eosOp d) ∨
    advanceDec p d = reportDec (srcerrOp d) ∨ ∃ vs, advanceDec p d = flightStep vs d := by
  rcases hflight : d.flight with _ | ⟨v, vs⟩
  · rw [advanceDec_idle p hflight]
    unfold startDec
    split
    · exact .inr (.inl ⟨_, rfl⟩)
    split
    · exact .inr (.inr (.inr (.inr ⟨_, rfl⟩)))
    split
    · exact .inr (.inr (.inl rfl))
    split
    · exact .inr (.inr (.inr (.inl rfl)))
    · exact .inl rfl
  · exact .inr (.inr (.inr (.inr ⟨v :: vs, by simp [advanceDec, hflight]⟩)))

/-- From `d` to `d'` at most one sample was taken and at most one operation ended. -/
def CycleAppends (d d' : Dec) : Prop :=
  (∃ l, d'.emitted = d.emitted ++ l ∧ IsSampleEmission l) ∧
  (d'.outcomes = d.outcomes ∨ ∃ o, d'.outcomes = d.outcomes ++ [o])

theorem smpOp_outcomes (v : Bool) (d : Dec) : (smpOp v d).2.outcomes = d.outcomes := by
  rcases hr : decRefusal d with _ | r
  · simp [smpOp, hr, takeSample_outcomes]
  · simp [smpOp, hr]

theorem eosOp_outcomes (d : Dec) : (eosOp d).2.outcomes = d.outcomes := by
  rcases hr : decRefusal d with _ | r
  · simp [eosOp, hr, takeSample_outcomes]
  · simp [eosOp, hr]

theorem srcerrOp_outcomes (d : Dec) : (srcerrOp d).2.outcomes = d.outcomes := by
  rcases hr : decRefusal d with _ | r <;> simp [srcerrOp, hr]

theorem cycleAppends_refl (d : Dec) : CycleAppends d d := ⟨⟨[], by simp, .inl rfl⟩, .inl rfl⟩

theorem cycleAppends_reportDec {d : Dec} {r : OpOutcome × Dec}
    (hemitted : ∃ l, r.2.emitted = d.emitted ++ l ∧ IsSampleEmission l) (houtcomes : r.2.outcomes = d.outcomes) :
    CycleAppends d (reportDec r) :=
  ⟨hemitted, .inr ⟨r.1, by simp [reportDec, houtcomes]⟩⟩

theorem cycleAppends_flightStep (vs : List Bool) (d : Dec) : CycleAppends d (flightStep vs d) := by
  rcases vs with _ | ⟨v, vs⟩
  · exact cycleAppends_refl d
  rcases hr : decRefusal d with _ | r
  · obtain ⟨l, hl, hshape, -⟩ := takeSample_emits v d
    rcases vs with _ | ⟨w, ws⟩
    · rw [flightStep_last hr]
      exact cycleAppends_reportDec ⟨l, hl, hshape⟩ (takeSample_outcomes v d)
    · rw [flightStep_more hr]
      exact ⟨⟨l, hl, hshape⟩, .inl (takeSample_outcomes v d)⟩
  · rw [flightStep_refused hr]
    exact cycleAppends_reportDec ⟨[], by simp, .inl rfl⟩ rfl

theorem cycleAppends_advanceDec (p : Pins) (d : Dec) : CycleAppends d (advanceDec p d) := by
  rcases advanceDec_eq_cases p d with e | ⟨v, e⟩ | e | e | ⟨vs, e⟩ <;> rw [e]
  · exact cycleAppends_refl d
  · exact cycleAppends_reportDec (smpOp_emits v d) (smpOp_outcomes v d)
  · exact cycleAppends_reportDec (eosOp_emits d) (eosOp_outcomes d)
  · exact cycleAppends_reportDec ⟨[], by simp [srcerrOp_emitted], .inl rfl⟩ (srcerrOp_outcomes d)
  · exact cycleAppends_flightStep vs d

theorem cycleAppends_clockDec {p : Pins} (hrst : p.decRst = false) (d : Dec) : CycleAppends d (clockDec p d) := by
  obtain ⟨q, e⟩ := driveParams_frame p d
  rw [clockDec_eq hrst, e]
  exact cycleAppends_advanceDec p { d with params := q }

/-! ### What the output pins show -/

theorem newEmitted_append (before l : List Emitted) : newEmitted false before (before ++ l) = l := by
  simp [newEmitted]

/-- The status pins show the outcome appended in the cycle, if there is one. -/
theorem newOutcome_shows {before after : List OpOutcome} (h : after = before ∨ ∃ o, after = before ++ [o]) :
    (after = before ∧ newOutcome false before after = none) ∨
      ∃ o, after = before ++ [o] ∧ newOutcome false before after = some o := by
  obtain rfl | ⟨o, rfl⟩ := h
  · exact .inl ⟨rfl, by simp [newOutcome]⟩
  · exact .inr ⟨o, rfl, by simp [newOutcome]⟩

/-- Settles O54: a cycle appends the records of one sample and one outcome at most, and the pins show what is new. -/
theorem portDecPinsShowTheCycle : Obligations.PortDecPinsShowTheCycle := by
  intro p s hrst d d' out
  obtain ⟨⟨l, hl, hshape⟩, houtcomes⟩ : CycleAppends d d' := cycleAppends_clockDec hrst s.dec
  have hsym : out.sym = firstSymbol l := by
    show firstSymbol (newEmitted p.decRst d.emitted d'.emitted) = _
    rw [hrst, hl, newEmitted_append]
  have hfb : out.fb = firstBoundary l := by
    show firstBoundary (newEmitted p.decRst d.emitted d'.emitted) = _
    rw [hrst, hl, newEmitted_append]
  have hstatus : out.decStatus = newOutcome false d.outcomes d'.outcomes := by
    rw [← hrst]
    rfl
  refine ⟨?_, by rw [hstatus]; exact newOutcome_shows houtcomes, ?_⟩
  · rw [hsym, hfb, hl]
    obtain rfl | ⟨y, g, rfl⟩ | ⟨y, g, f, rfl⟩ := hshape
    · exact .inl ⟨by simp, rfl, rfl⟩
    · exact .inr (.inl ⟨y, g, rfl, rfl, rfl⟩)
    · exact .inr (.inr ⟨y, g, f, rfl, rfl, rfl⟩)
  · show (!d'.flight.isEmpty) = true ↔ _
    simp

theorem startTx_outcomes (p : Pins) (x : Tx) :
    (startTx p x).outcomes = x.outcomes ∨ ∃ o, (startTx p x).outcomes = x.outcomes ++ [o] := by
  unfold startTx startSend startClose
  split
  · rcases x.mode <;> rcases isCommand p.cmdIn <;> simp [reportTx]
  · split
    · rcases x.mode <;> simp [reportTx]
    · exact .inl rfl

theorem flightByte_outcomes (p : Pins) (f : TxFlight) (x : Tx) :
    (flightByte p f x).outcomes = x.outcomes ∨ ∃ o, (flightByte p f x).outcomes = x.outcomes ++ [o] := by
  unfold flightByte
  split
  · exact .inr ⟨_, rfl⟩
  split
  · exact .inl rfl
  split
  · exact .inl rfl
  · exact .inr ⟨_, rfl⟩

/-- At most one operation of the endpoint ends in a cycle that does not reset it. -/
theorem clockTx_outcomes {p : Pins} (hrst : p.txRst = false) (x : Tx) :
    (clockTx p x).outcomes = x.outcomes ∨ ∃ o, (clockTx p x).outcomes = x.outcomes ++ [o] := by
  rcases hflight : x.flight with _ | f
  · simpa [clockTx, hrst, hflight] using startTx_outcomes p x
  · simpa [clockTx, hrst, hflight] using flightByte_outcomes p f x

/-- Settles O55: the pins are read off the endpoint after the cycle, and the encoder has no state (R93). -/
theorem portTxPinsShowTheCycle : Obligations.PortTxPinsShowTheCycle := by
  intro p s x x' out
  have hsink : out.sinkByte = x'.flight.map fun f => commandByte f.word f.sent.val := rfl
  refine ⟨fun hrst => ?_, ?_, ?_, fun hnone => ?_, fun f hf => ?_, congrArg some (encPortWord_eq p.encIn)⟩
  · have hstatus : out.txStatus = newOutcome false x.outcomes x'.outcomes := by
      rw [← hrst]
      rfl
    rw [hstatus]
    exact newOutcome_shows (clockTx_outcomes hrst s.tx)
  · show x'.flight.isSome = true ↔ _
    rw [Option.isSome_iff_ne_none]
  · show decide (x'.mode = .opened) = true ↔ _
    rw [decide_eq_true_iff]
  · rw [hsink, hnone]
    rfl
  · rw [hsink, hf]
    rfl

end Sys2Proof.Machine
end

section
/-! The family of 30_encoding.md, several cycles of the port form: the eight cycles of a byte do `SMPB` (R91), and the sink
handshake does `SEND` and `CLOSE` (R92). Each is an induction over the cycles, for the agent alone. -/

namespace Sys2Proof.Machine

/-! ### A run of cycles, agent by agent -/

/-- Agent DEC over a run of cycles. -/
def clockDecRun (ps : List Pins) (d : Dec) : Dec := ps.foldl (fun d p => clockDec p d) d

/-- Agent TX over a run of cycles. -/
def clockTxRun (ps : List Pins) (x : Tx) : Tx := ps.foldl (fun x p => clockTx p x) x

theorem clockDecRun_cons (p : Pins) (ps : List Pins) (d : Dec) :
    clockDecRun (p :: ps) d = clockDecRun ps (clockDec p d) := rfl

theorem clockTxRun_cons (p : Pins) (ps : List Pins) (x : Tx) : clockTxRun (p :: ps) x = clockTxRun ps (clockTx p x) := rfl

theorem clockRun_dec (ps : List Pins) (s : State) : (clockRun ps s).dec = clockDecRun ps s.dec := by
  induction ps generalizing s with
  | nil => rfl
  | cons p ps ih => exact ih (clockCycle p s)

theorem clockRun_tx (ps : List Pins) (s : State) : (clockRun ps s).tx = clockTxRun ps s.tx := by
  induction ps generalizing s with
  | nil => rfl
  | cons p ps ih => exact ih (clockCycle p s)

/-- `dec_busy` is that samples of a byte are left. -/
theorem clockRun_decBusy (p : Pins) (ps : List Pins) (s : State) :
    (clockRun (p :: ps) s).out.decBusy = !(clockRun (p :: ps) s).dec.flight.isEmpty := by
  induction ps generalizing p s with
  | nil => rfl
  | cons q ps ih => exact ih q (clockCycle p s)

/-! ### A byte in flight -/

/-- A sample reads and writes no flight. -/
theorem takeSample_withFlight (v : Bool) (d : Dec) (l : List Bool) :
    takeSample v { d with flight := l } = { takeSample v d with flight := l } := by
  rcases takeSample_cases v d with rfl | ⟨rfl, hlevel⟩ | ⟨rfl, hlevel⟩
  · rw [takeSample_noEdge]
    exact takeSample_noEdge { d with flight := l }
  · rw [takeSample_fall hlevel]
    exact takeSample_fall (d := { d with flight := l }) hlevel
  · rw [takeSample_rise hlevel]
    exact takeSample_rise (d := { d with flight := l }) hlevel

/-- The cycle of a sample reads the samples left from its argument alone. -/
theorem flightStep_withFlight (v : Bool) (vs : List Bool) (d : Dec) (l : List Bool) :
    flightStep (v :: vs) { d with flight := l } = flightStep (v :: vs) d := by
  have href : decRefusal { d with flight := l } = decRefusal d := rfl
  rcases hr : decRefusal d with _ | r
  · rcases vs with _ | ⟨w, ws⟩
    · rw [flightStep_last hr, flightStep_last (href.trans hr), takeSample_withFlight]
    · rw [flightStep_more hr, flightStep_more (href.trans hr), takeSample_withFlight]
  · rw [flightStep_refused hr, flightStep_refused (href.trans hr)]

theorem takeSample_flight (v : Bool) (d : Dec) : (takeSample v d).flight = d.flight := by
  obtain ⟨-, -, -, -, -, -, hflight, -⟩ := takeSample_frame v d
  exact hflight

/-- After a sample the parameters are locked, for the time index has left 0. -/
theorem Dec.TimeWithin.locked_takeSample {d : Dec} (h : d.TimeWithin) (hovf : d.ovf = false) (v : Bool) :
    paramsOpen (Machine.takeSample v d) = false := by
  obtain ⟨-, ht, -⟩ := takeSample_frame v d
  exact paramsOpen_eq_false_iff.2 (.inr (ht ▸ timeAfter_pos h hovf))

/-- A refusing decoder has its parameters locked: it is in `Done`, or at the last time, which is not 0. -/
theorem Dec.TimeWithin.locked_of_refused {d : Dec} (h : d.TimeWithin) {r : OpOutcome} (hr : decRefusal d = some r) :
    paramsOpen d = false := by
  rw [paramsOpen_eq_false_iff]
  rcases hmode : d.mode
  case done => exact .inl rfl
  case run =>
    refine .inr ?_
    rcases hovf : d.ovf
    · simp [decRefusal_run hovf hmode] at hr
    · rcases hw : d.timeWidth with _ | w
      · simp [h.natural hw] at hovf
      · obtain ⟨hpos, -, hlast⟩ := h.finite w hw
        have htwo : 2 ^ 1 ≤ 2 ^ w := Nat.pow_le_pow_right (by decide) hpos
        have := hlast hovf
        omega

theorem clockDec_locked {p : Pins} (hrst : p.decRst = false) {d : Dec} (h : paramsOpen d = false) :
    clockDec p d = advanceDec p d := by
  rw [clockDec_eq hrst, driveParams_locked p h]

/-- Idle cycles leave a decoder with locked parameters and nothing in flight as it is. -/
theorem clockDecRun_idle {ps : List Pins} {d : Dec} (hps : ∀ q ∈ ps, q.decRst = false ∧ q.decOp = 0b000#3)
    (hlocked : paramsOpen d = false) (hflight : d.flight = []) : clockDecRun ps d = d := by
  induction ps with
  | nil => rfl
  | cons q ps ih =>
    obtain ⟨⟨hrst, hop⟩, hps⟩ := List.forall_mem_cons.1 hps
    rw [clockDecRun_cons, clockDec_locked hrst hlocked, advanceDec_idle q hflight, startDec_none (.inl hop)]
    exact ih hps

/-- An accepted sample that is not the last leaves the next cycle to the next sample, whatever its `dec_op`. -/
theorem clockDec_flightStep {p : Pins} (hrst : p.decRst = false) {d : Dec} (htime : d.TimeWithin)
    (hrun : decRefusal d = none) (v w : Bool) (ws : List Bool) :
    clockDec p (flightStep (v :: w :: ws) d) = flightStep (w :: ws) (takeSample v d) := by
  obtain ⟨hovf, -⟩ := decRefusal_eq_none.1 hrun
  have hlocked : paramsOpen { takeSample v d with flight := w :: ws } = false := htime.locked_takeSample hovf v
  rw [flightStep_more hrun, clockDec_locked hrst hlocked]
  exact flightStep_withFlight w ws (takeSample v d) (w :: ws)

theorem smpSeq_refused {d : Dec} {r : OpOutcome} (hr : decRefusal d = some r) (v : Bool) (vs : List Bool) :
    smpSeq (v :: vs) d = (r, d) := by
  simp [smpSeq, hr]

theorem smpSeq_accepted {d : Dec} (hr : decRefusal d = none) (v : Bool) (vs : List Bool) :
    smpSeq (v :: vs) d = smpSeq vs (takeSample v d) := by
  simp [smpSeq, hr]

theorem smpbOp_eq (b : Byte) (d : Dec) : smpbOp b d = smpSeq (byteSamples b) d := by
  rcases hr : decRefusal d with _ | r
  · simp [smpbOp, hr]
  · rw [(IsDecOp.smpb b).refused hr]
    exact (smpSeq_refused hr _ _).symm

theorem withFlight_nil {d : Dec} (hflight : d.flight = []) : { d with flight := [] } = d := by
  rw [← hflight]

/-- A refusal ends the byte in its cycle (log entry 31), and idle cycles follow. -/
theorem clockDecRun_refused {v : Bool} {vs : List Bool} {ps : List Pins} {d : Dec} {r : OpOutcome}
    (hr : decRefusal d = some r) (hflight : d.flight = []) (htime : d.TimeWithin)
    (hps : ∀ q ∈ ps, q.decRst = false ∧ q.decOp = 0b000#3) :
    clockDecRun ps (flightStep (v :: vs) d) = reportDec (smpSeq (v :: vs) d) := by
  have hlocked : paramsOpen (reportDec (r, d)) = false := htime.locked_of_refused hr
  rw [flightStep_refused hr, withFlight_nil hflight, smpSeq_refused hr]
  exact clockDecRun_idle hps hlocked hflight

/-- The cycles of a byte do what its samples do one after another (R91, R105). With an idle `dec_op` a refusal ends them; a
streaming decoder refuses none, so `dec_op` is never read. -/
theorem clockDecRun_flightStep (vs : List Bool) {v : Bool} {ps : List Pins} {d : Dec} (hflight : d.flight = [])
    (htime : d.TimeWithin) (hlen : ps.length = vs.length) (hrst : ∀ q ∈ ps, q.decRst = false)
    (hop : (∀ q ∈ ps, q.decOp = 0b000#3) ∨ d.Streaming) :
    clockDecRun ps (flightStep (v :: vs) d) = reportDec (smpSeq (v :: vs) d) := by
  induction vs generalizing v ps d with
  | nil =>
    obtain rfl := List.eq_nil_of_length_eq_zero hlen
    rcases hr : decRefusal d with _ | r
    · rw [flightStep_last hr, smpSeq_accepted hr, withFlight_nil ((takeSample_flight v d).trans hflight)]
      rfl
    · exact clockDecRun_refused hr hflight htime (by simp)
  | cons w ws ih =>
    rcases ps with _ | ⟨q, ps⟩
    · simp at hlen
    rcases hr : decRefusal d with _ | r
    · obtain ⟨hq, hps⟩ := List.forall_mem_cons.1 hrst
      obtain ⟨hovf, -⟩ := decRefusal_eq_none.1 hr
      rw [clockDecRun_cons, clockDec_flightStep hq htime hr, smpSeq_accepted hr]
      exact ih ((takeSample_flight v d).trans hflight) (htime.takeSample hovf v) (Nat.succ.inj hlen) hps
        (hop.imp (fun hidle => (List.forall_mem_cons.1 hidle).2) (·.takeSample v))
    · refine clockDecRun_refused hr hflight htime fun p hp => ⟨hrst p hp, ?_⟩
      obtain hidle | hstream := hop
      · exact hidle p hp
      · simp [hstream.decRefusal_eq] at hr

/-- While a streaming decoder has samples left in flight, they are the ones no cycle has taken. -/
theorem clockDecRun_flight (ps : List Pins) {v : Bool} {vs : List Bool} {d : Dec} (h : d.Streaming)
    (hlen : ps.length ≤ vs.length) (hrst : ∀ q ∈ ps, q.decRst = false) :
    (clockDecRun ps (flightStep (v :: vs) d)).flight = vs.drop ps.length := by
  induction ps generalizing v vs d with
  | nil =>
    rcases vs with _ | ⟨w, ws⟩
    · rw [flightStep_last h.decRefusal_eq]
      rfl
    · rw [flightStep_more h.decRefusal_eq]
      rfl
  | cons q ps ih =>
    rcases vs with _ | ⟨w, ws⟩
    · simp at hlen
    obtain ⟨hq, hps⟩ := List.forall_mem_cons.1 hrst
    have htime : d.TimeWithin := ⟨fun _ => h.ovf_eq, fun w hw => by simp [h.timeWidth_eq] at hw⟩
    rw [clockDecRun_cons, clockDec_flightStep hq htime h.decRefusal_eq]
    exact ih (h.takeSample v) (Nat.le_of_succ_le_succ hlen) hps

/-! ### SMPB in eight cycles -/

/-- The cycle that accepts a byte takes its first sample, under the parameter values of that cycle (log entries 8, 17). -/
theorem clockDec_smpb {p : Pins} (hrst : p.decRst = false) (hop : p.decOp = 0b010#3) {d : Dec} (hflight : d.flight = []) :
    clockDec p d = flightStep (byteSamples p.smpByte) (driveParams p d) := by
  rw [clockDec_eq hrst, advanceDec_idle p ((driveParams_flight p d).trans hflight), startDec_smpb hop]

theorem driveParams_streaming {d : Dec} (h : d.Streaming) (p : Pins) : (driveParams p d).Streaming := by
  obtain ⟨q, e⟩ := driveParams_frame p d
  rw [e]
  exact ⟨h.timeWidth_eq, h.flight_eq, h.ovf_eq, h.mode_eq⟩

theorem driveParams_timeWithin {d : Dec} (h : d.TimeWithin) (p : Pins) : (driveParams p d).TimeWithin := by
  obtain ⟨q, e⟩ := driveParams_frame p d
  rw [e]
  exact ⟨h.natural, h.finite⟩

/-- The first sample is taken in the accepting cycle, the other seven in the seven cycles after it. -/
theorem clockDecRun_byte (b : Byte) {ps : List Pins} {d : Dec} (hflight : d.flight = []) (htime : d.TimeWithin)
    (hlen : ps.length = 7) (hrst : ∀ q ∈ ps, q.decRst = false) (hop : (∀ q ∈ ps, q.decOp = 0b000#3) ∨ d.Streaming) :
    clockDecRun ps (flightStep (byteSamples b) d) = reportDec (smpbOp b d) := by
  rw [smpbOp_eq]
  exact clockDecRun_flightStep (byteSamples b).tail hflight htime hlen hrst hop

theorem clockDecRun_byte_busy (b : Byte) {ps : List Pins} {d : Dec} (h : d.Streaming) (hlen : ps.length ≤ 7)
    (hrst : ∀ q ∈ ps, q.decRst = false) :
    (!(clockDecRun ps (flightStep (byteSamples b) d)).flight.isEmpty) = decide (ps.length < 7) := by
  have hleft : (clockDecRun ps (flightStep (byteSamples b) d)).flight = (byteSamples b).tail.drop ps.length :=
    clockDecRun_flight ps h hlen hrst
  have hempty : (byteSamples b).tail.drop ps.length = [] ↔ 7 ≤ ps.length := List.drop_eq_nil_iff
  rw [hleft, Bool.eq_iff_iff, Bool.not_eq_true', decide_eq_true_iff, List.isEmpty_eq_false_iff, ne_eq, hempty, not_le]

/-- Settles O56: both parts are about agent DEC over the cycles, the first of which starts the byte. -/
theorem portSmpbIsTheOperation : Obligations.PortSmpbIsTheOperation := by
  intro p ps s hinv hlen hrst hps hop hflight
  obtain ⟨-, -, -, htime⟩ := decInv_iff.1 hinv
  have hflight' : (driveParams p s.dec).flight = [] := (driveParams_flight p s.dec).trans hflight
  have hstream : s.dec.timeWidth = none ∧ s.dec.ovf = false ∧ s.dec.mode = .run → (driveParams p s.dec).Streaming :=
    fun ⟨hwidth, hovf, hmode⟩ => driveParams_streaming ⟨hwidth, hflight, hovf, hmode⟩ p
  have hrun : ∀ qs, (clockRun (p :: qs) s).dec =
      clockDecRun qs (flightStep (byteSamples p.smpByte) (driveParams p s.dec)) := fun qs => by
    rw [clockRun_dec, clockDecRun_cons, clockDec_smpb hrst hop hflight]
  refine ⟨fun hidle => ?_, fun hnatural n hn => ?_⟩
  · rw [hrun, clockDecRun_byte p.smpByte hflight' (driveParams_timeWithin htime p) hlen hps (hidle.imp_right hstream)]
    exact runDec_eq (smpbOp p.smpByte) (s := { s with dec := driveParams p s.dec }) hflight'
  · have htaken : (ps.take n).length = n := by
      rw [List.length_take, hlen]
      omega
    rw [List.take_succ_cons, clockRun_decBusy, hrun, clockDecRun_byte_busy p.smpByte (hstream hnatural) (by omega)
      fun q hq => hps q (List.mem_of_mem_take hq), htaken]

/-! ### The sink handshake -/

/-- What the sink does in the cycles of a run in which it does something: `true` fails, `false` accepts the byte on offer. -/
def sinkReplies (ps : List Pins) : List Bool := (ps.filter fun q => q.sinkReady || q.sinkErr).map (·.sinkErr)

/-- The replies that take the block from `n` accepted bytes to `k`, and fail at the next one unless it is whole (R92). -/
def repliesFrom (n : Nat) (k : Fin 9) : List Bool :=
  List.replicate (k.val - n) false ++ if k.val < 8 then [true] else []

theorem clockTx_idle {q : Pins} (hrst : q.txRst = false) (hop : q.txOp = 0b00#2) {x : Tx} (hflight : x.flight = none) :
    clockTx q x = x := by
  simp [clockTx, hrst, hflight, startTx, hop]

/-- Idle cycles leave an endpoint with nothing in flight as it is. -/
theorem clockTxRun_idle {ps : List Pins} {x : Tx} (hps : ∀ q ∈ ps, q.txRst = false ∧ q.txOp = 0b00#2)
    (hflight : x.flight = none) : clockTxRun ps x = x := by
  induction ps with
  | nil => rfl
  | cons q ps ih =>
    obtain ⟨⟨hrst, hop⟩, hps⟩ := List.forall_mem_cons.1 hps
    rw [clockTxRun_cons, clockTx_idle hrst hop hflight]
    exact ih hps

theorem clockTx_flight {q : Pins} (hrst : q.txRst = false) {x : Tx} {f : TxFlight} (hflight : x.flight = some f) :
    clockTx q x = flightByte q f x := by
  simp [clockTx, hrst, hflight]

theorem sinkReplies_waiting {q : Pins} (ps : List Pins) (herr : q.sinkErr = false) (hready : q.sinkReady = false) :
    sinkReplies (q :: ps) = sinkReplies ps := by
  simp [sinkReplies, herr, hready]

theorem sinkReplies_accepting {q : Pins} (ps : List Pins) (herr : q.sinkErr = false) (hready : q.sinkReady = true) :
    sinkReplies (q :: ps) = false :: sinkReplies ps := by
  simp [sinkReplies, herr, hready]

theorem sinkReplies_failing {q : Pins} (ps : List Pins) (herr : q.sinkErr = true) :
    sinkReplies (q :: ps) = true :: sinkReplies ps := by
  simp [sinkReplies, herr]

theorem repliesFrom_of_lt {n : Nat} {k : Fin 9} (h : n < k.val) : repliesFrom n k = false :: repliesFrom (n + 1) k := by
  have hcount : k.val - n = (k.val - (n + 1)) + 1 := by omega
  rw [repliesFrom, hcount, List.replicate_succ, List.cons_append, ← repliesFrom]

theorem repliesFrom_self {k : Fin 9} (h : k.val < 8) : repliesFrom k.val k = [true] := by
  simp [repliesFrom, h]

/-- The first reply of a block that is not whole: the byte is accepted, or fails after the last one accepted. -/
theorem repliesFrom_cases {n : Fin 8} {k : Fin 9} (h : n.val ≤ k.val) :
    (n.val < k.val ∧ repliesFrom n.val k = false :: repliesFrom (n.val + 1) k) ∨
      (n.castSucc = k ∧ repliesFrom n.val k = [true]) := by
  rcases Nat.lt_or_eq_of_le h with hlt | heq
  · exact .inl ⟨hlt, repliesFrom_of_lt hlt⟩
  · exact .inr ⟨Fin.ext heq, by rw [heq]; exact repliesFrom_self (by omega)⟩

theorem flightByte_waiting {q : Pins} (herr : q.sinkErr = false) (hready : q.sinkReady = false) (f : TxFlight) (x : Tx) :
    flightByte q f x = x := by
  simp [flightByte, herr, hready]

theorem flightByte_failing {q : Pins} (herr : q.sinkErr = true) (f : TxFlight) (x : Tx) :
    flightByte q f x = reportTx (.sinkWriteFailure f.sent) { x with flight := none } := by
  simp [flightByte, herr]

theorem flightByte_accepting {q : Pins} (herr : q.sinkErr = false) (hready : q.sinkReady = true) {w : CmdWord} {n : Fin 8}
    (h : n.val + 1 < 8) (x : Tx) : flightByte q ⟨w, n⟩ x =
      { x with sink := x.sink ++ [commandByte w n.val], flight := some ⟨w, ⟨n.val + 1, h⟩⟩ } := by
  simp [flightByte, herr, hready, h]

theorem flightByte_finishing {q : Pins} (herr : q.sinkErr = false) (hready : q.sinkReady = true) (w : CmdWord) (x : Tx) :
    flightByte q ⟨w, 7⟩ x = reportTx .ok { x with sink := x.sink ++ [commandByte w 7], flight := none } := by
  simp [flightByte, herr, hready]

theorem commandBytes_getElem (w : CmdWord) {n : Nat} (h : n < (commandBytes w).length) :
    (commandBytes w)[n] = commandByte w n := by
  rw [commandBytes_length] at h
  interval_cases n <;> rfl

/-- The bytes from the `n`-th on start with the `n`-th. -/
theorem drop_take_commandBytes (w : CmdWord) {n : Fin 8} {k : Fin 9} (h : n.val < k.val) :
    ((commandBytes w).take k.val).drop n.val = commandByte w n.val :: ((commandBytes w).take k.val).drop (n.val + 1) := by
  have hlen : n.val < ((commandBytes w).take k.val).length := by simp; omega
  rw [List.drop_eq_getElem_cons hlen, List.getElem_take, commandBytes_getElem]

/-- The cycles of a block with `n` bytes accepted put the bytes up to the `k`-th on SINK and report the outcome of `k`, where
the sink's replies are those of `k`; a waiting cycle changes nothing (R92, R57, R187). -/
theorem clockTxRun_flight {w : CmdWord} {k : Fin 9} {ps : List Pins} {n : Fin 8} {x : Tx}
    (hps : ∀ q ∈ ps, q.txRst = false ∧ q.txOp = 0b00#2) (hflight : x.flight = none) (hn : n.val ≤ k.val)
    (hreplies : sinkReplies ps = repliesFrom n.val k) :
    clockTxRun ps { x with flight := some ⟨w, n⟩ } =
      reportTx (sinkOutcome k) { x with sink := x.sink ++ ((commandBytes w).take k.val).drop n.val } := by
  induction ps generalizing n x with
  | nil => rcases repliesFrom_cases hn with ⟨-, e⟩ | ⟨-, e⟩ <;> rw [e] at hreplies <;> cases hreplies
  | cons q ps ih =>
    obtain ⟨⟨hrst, -⟩, hps⟩ := List.forall_mem_cons.1 hps
    rw [clockTxRun_cons, clockTx_flight hrst rfl]
    rcases herr : q.sinkErr with _ | _
    · rcases hready : q.sinkReady with _ | _
      · rw [sinkReplies_waiting ps herr hready] at hreplies
        rw [flightByte_waiting herr hready]
        exact ih hps hflight hn hreplies
      · rw [sinkReplies_accepting ps herr hready] at hreplies
        rcases repliesFrom_cases hn with ⟨hlt, e⟩ | ⟨-, e⟩ <;> rw [e] at hreplies
        · have hreplies := (List.cons.inj hreplies).2
          rw [drop_take_commandBytes w hlt]
          by_cases hmore : n.val + 1 < 8
          · rw [flightByte_accepting herr hready hmore]
            have hrest := ih (n := ⟨n.val + 1, hmore⟩) (x := { x with sink := x.sink ++ [commandByte w n.val] }) hps
              hflight hlt hreplies
            simpa using hrest
          · obtain rfl : n = 7 := by omega
            obtain rfl : k = 8 := by omega
            rw [flightByte_finishing herr hready, clockTxRun_idle hps rfl, sinkOutcome_eight, ← hflight]
            rfl
        · cases hreplies
    · rw [sinkReplies_failing ps herr] at hreplies
      rcases repliesFrom_cases hn with ⟨-, e⟩ | ⟨rfl, e⟩ <;> rw [e] at hreplies
      · cases hreplies
      · rw [flightByte_failing herr, clockTxRun_idle hps rfl, sinkOutcome_castSucc, ← hflight]
        simp

/-- The whole block, offered from the cycle after its operation was accepted (log entry 17). -/
theorem clockTxRun_block {w : CmdWord} {k : Fin 9} {ps : List Pins} {x : Tx}
    (hps : ∀ q ∈ ps, q.txRst = false ∧ q.txOp = 0b00#2) (hflight : x.flight = none)
    (hreplies : sinkReplies ps = repliesFrom 0 k) :
    clockTxRun ps { x with flight := some ⟨w, 0⟩ } =
      reportTx (sinkOutcome k) { x with sink := x.sink ++ (commandBytes w).take k.val } :=
  clockTxRun_flight (n := 0) hps hflight (Nat.zero_le _) hreplies

/-! ### SEND and CLOSE by the handshake -/

theorem startSend_open {c : CmdWord} {x : Tx} (hmode : x.mode = .opened) (hc : isCommand c = true) :
    startSend c x = { x with flight := some ⟨c, 0⟩ } := by
  simp [startSend, hmode, hc]

theorem startSend_badCommand {c : CmdWord} {x : Tx} (hmode : x.mode = .opened) (hc : isCommand c = false) :
    startSend c x = reportTx .badCommand x := by
  simp [startSend, hmode, hc]

theorem startClose_open {x : Tx} (hmode : x.mode = .opened) :
    startClose x = { x with mode := .closed, flight := some ⟨sentinel, 0⟩ } := by
  simp [startClose, hmode]

theorem sendOp_answering_badCommand {c : CmdWord} (k : Fin 9) {x : Tx} (hmode : x.mode = .opened)
    (hc : isCommand c = false) : { sendOp c (x.answering k) with answers := x.answers } = reportTx .badCommand x := by
  rw [sendOp_badCommand (x := x.answering k) hmode hc]
  rfl

theorem closeOp_answering_open (k : Fin 9) {x : Tx} (hmode : x.mode = .opened) :
    { closeOp (x.answering k) with answers := x.answers } =
      reportTx (sinkOutcome k) { x with mode := .closed, sink := x.sink ++ (commandBytes sentinel).take k.val } := by
  rw [closeOp_open (x := x.answering k) hmode]
  exact writeBlock_answering sentinel k { x with mode := .closed }

theorem closeOp_answering_closed (k : Fin 9) {x : Tx} (hmode : x.mode = .closed) :
    { closeOp (x.answering k) with answers := x.answers } = reportTx .txClosed x := by
  rw [closeOp_closed (x := x.answering k) hmode]
  rfl

section
variable {ps : List Pins} {k : Fin 9} {x : Tx} (hps : ∀ q ∈ ps, q.txRst = false ∧ q.txOp = 0b00#2)
  (hflight : x.flight = none) (hreplies : sinkReplies ps = repliesFrom 0 k)
include hps hflight hreplies

theorem clockTxRun_startSend (c : CmdWord) :
    clockTxRun ps (startSend c x) = { sendOp c (x.answering k) with answers := x.answers } := by
  rcases hmode : x.mode with _ | _
  · rcases hc : isCommand c with _ | _
    · rw [startSend_badCommand hmode hc, sendOp_answering_badCommand k hmode hc]
      exact clockTxRun_idle hps hflight
    · rw [startSend_open hmode hc, sendOp_answering_open k hmode hc]
      exact clockTxRun_block hps hflight hreplies
  · rw [startSend_closed c hmode, sendOp_answering_closed c k hmode]
    exact clockTxRun_idle hps hflight

theorem clockTxRun_startClose :
    clockTxRun ps (startClose x) = { closeOp (x.answering k) with answers := x.answers } := by
  rcases hmode : x.mode with _ | _
  · rw [startClose_open hmode, closeOp_answering_open k hmode]
    exact clockTxRun_block (x := { x with mode := .closed }) hps hflight hreplies
  · rw [startClose_closed hmode, closeOp_answering_closed k hmode]
    exact clockTxRun_idle hps hflight

end

theorem clockTx_start {p : Pins} (hrst : p.txRst = false) {x : Tx} (hflight : x.flight = none) :
    clockTx p x = startTx p x := by
  simp [clockTx, hrst, hflight]

theorem startTx_send {p : Pins} (h : p.txOp = 0b01#2) (x : Tx) : startTx p x = startSend p.cmdIn x := by
  simp [startTx, h]

theorem startTx_close {p : Pins} (h : p.txOp = 0b10#2) (x : Tx) : startTx p x = startClose x := by
  simp [startTx, h]

/-- Settles O57: the first cycle accepts the operation or refuses it, the others are the handshake of its block. -/
theorem portEndpointIsTheOperation : Obligations.PortEndpointIsTheOperation := by
  intro p ps k s hrst hps hflight hreplies
  have hrun : (clockRun (p :: ps) s).tx = clockTxRun ps (startTx p s.tx) := by
    rw [clockRun_tx, clockTxRun_cons, clockTx_start hrst hflight]
  rw [hrun]
  refine ⟨fun hop => ⟨sendOp p.cmdIn (s.tx.answering k), ?_, ?_⟩, fun hop => ⟨closeOp (s.tx.answering k), ?_, ?_⟩⟩
  · exact runTx_eq (sendOp p.cmdIn) (s := { s with tx := s.tx.answering k }) hflight
  · rw [startTx_send hop]
    exact clockTxRun_startSend hps hflight hreplies p.cmdIn
  · exact runTx_eq closeOp (s := { s with tx := s.tx.answering k }) hflight
  · rw [startTx_close hop]
    exact clockTxRun_startClose hps hflight hreplies

end Sys2Proof.Machine
end

section
/-! The family of 40_edge_detector.md. A sample by the edge it makes (R100 to R104), a byte as its eight samples (R105), and
the two operations that end the stream (R106, R107). -/

namespace Sys2Proof.Machine

/-! ### A rising edge (41_pulse_classifier.md R120 to R125, 42_frame_boundary.md R150) -/

/-- Steps 2 and 3: a long pulse, or a time within its length and `T_GAP`. -/
theorem riseRecords_unclassified {p : Params} {lastRise lastFall t : Nat}
    (h : p.tLong ≤ lastFall - lastRise ∨ t ≤ lastFall - lastRise + p.tGap) :
    riseRecords p lastRise lastFall t = [.symbol ⟨lastRise, lastFall, t, .unknown⟩] := by
  rcases riseRecords_cases p lastRise lastFall t with ⟨-, e⟩ | ⟨hlong, hgap, -, -⟩ | ⟨hlong, hgap, -, -⟩
  · exact e
  · omega
  · omega

section
variable {p : Params} {lastRise lastFall t : Nat} (hlong : lastFall - lastRise < p.tLong)
  (hgap : lastFall - lastRise + p.tGap < t)
include hlong hgap

/-- Step 4 before `bit_end_max`. -/
theorem riseRecords_classified (hmax : t < lastRise + p.tBitMax) :
    riseRecords p lastRise lastFall t =
      [.symbol ⟨lastRise, lastFall, t, classify p (lastFall - lastRise)⟩] := by
  rcases riseRecords_cases p lastRise lastFall t with ⟨h, -⟩ | ⟨-, -, -, e⟩ | ⟨-, -, hmax', -⟩
  · omega
  · exact e
  · omega

/-- Step 4 from `bit_end_max` on. -/
theorem riseRecords_boundary (hmax : lastRise + p.tBitMax ≤ t) :
    riseRecords p lastRise lastFall t =
      [.symbol ⟨lastRise, lastFall, lastRise + p.tBitMax, classify p (lastFall - lastRise)⟩,
       .boundary ⟨lastRise + p.tBitMax, t⟩] := by
  rcases riseRecords_cases p lastRise lastFall t with ⟨h, -⟩ | ⟨-, -, hmax', -⟩ | ⟨-, -, -, e⟩
  · omega
  · omega
  · exact e

end

/-- A rising edge always completes the Symbol of the last pulse, and that record comes first. -/
theorem riseRecords_eq_symbol_cons (p : Params) (lastRise lastFall t : Nat) :
    ∃ stop c rest, riseRecords p lastRise lastFall t = .symbol ⟨lastRise, lastFall, stop, c⟩ :: rest := by
  rcases riseRecords_cases p lastRise lastFall t with ⟨-, e⟩ | ⟨-, -, -, e⟩ | ⟨-, -, -, e⟩
  · exact ⟨_, _, _, e⟩
  · exact ⟨_, _, _, e⟩
  · exact ⟨_, _, _, e⟩

/-- A rising edge that is accepted, by the records that it makes. -/
theorem exec_smp_rise {s : State} (hflight : s.dec.flight = []) (hrun : decRefusal s.dec = none)
    (hlevel : s.dec.lastLevel = false) {rs : List Record}
    (hrs : riseRecords s.dec.params s.dec.lastRise s.dec.lastFall s.dec.t = rs) :
    exec (.smp true) s = .next { s with dec := { s.dec with
      lastLevel := true, lastRise := s.dec.t, t := timeAfter s.dec, ovf := ovfAfter s.dec,
      emitted := s.dec.emitted ++ (groupsOf s.dec.params.group s.dec.grpCnt rs).1,
      grpCnt := (groupsOf s.dec.params.group s.dec.grpCnt rs).2, outcomes := s.dec.outcomes ++ [.ok] } } := by
  rw [exec_smp_accepted true hflight hrun, takeSample_rise hlevel, hrs]

/-- Settles O11: each case gives its records, which the grouping counter numbers (42_frame_boundary.md R156). -/
theorem smpRisingEdgeEmitsBySteps : Obligations.SmpRisingEdgeEmitsBySteps := by
  intro s hflight hovf hmode hlevel d pos
  have hrun : decRefusal s.dec = none := decRefusal_run hovf hmode
  refine ⟨fun h => ?_, fun hlong hgap hmax => ?_, fun hlong hgap hmax => ?_⟩
  · exact exec_smp_rise hflight hrun hlevel (riseRecords_unclassified h)
  · exact exec_smp_rise hflight hrun hlevel (riseRecords_classified hlong hgap hmax)
  · exact exec_smp_rise hflight hrun hlevel (riseRecords_boundary hlong hgap hmax)

/-! ### A falling edge, and no edge -/

/-- Settles O10: the sample is accepted, and a falling edge writes its time (R104). -/
theorem smpFallingEdgeRecordsTime : Obligations.SmpFallingEdgeRecordsTime := by
  intro s hflight hovf hmode hlevel
  rw [exec_smp_accepted false hflight (decRefusal_run hovf hmode), takeSample_fall hlevel]

theorem exec_smp_noEdge {s : State} (hflight : s.dec.flight = []) (hrun : decRefusal s.dec = none) :
    exec (.smp s.dec.lastLevel) s = .next { s with dec := { s.dec with
      t := timeAfter s.dec, ovf := ovfAfter s.dec, outcomes := s.dec.outcomes ++ [.ok] } } := by
  rw [exec_smp_accepted _ hflight hrun, takeSample_noEdge]

/-- In every mode, for a refused sample writes even less. -/
theorem exec_smp_noEdge_frame {s : State} (hflight : s.dec.flight = []) :
    ∃ t ovf outcomes, exec (.smp s.dec.lastLevel) s =
      .next { s with dec := { s.dec with t := t, ovf := ovf, outcomes := outcomes } } := by
  rcases hr : decRefusal s.dec with _ | r
  · exact ⟨_, _, _, exec_smp_noEdge hflight hr⟩
  · exact ⟨s.dec.t, s.dec.ovf, _, exec_refused rfl hflight hr⟩

/-- A sample without an edge leaves the level, so the next one of that level makes no edge either (R102). -/
theorem runOps_smp_noEdge_frame (n : Nat) {s : State} (hflight : s.dec.flight = []) :
    ∃ t ovf outcomes, runOps (List.replicate n (.smp s.dec.lastLevel)) s =
      .next { s with dec := { s.dec with t := t, ovf := ovf, outcomes := outcomes } } := by
  induction n generalizing s with
  | zero => exact ⟨_, _, _, rfl⟩
  | succ n ih =>
    obtain ⟨t₁, ovf₁, outcomes₁, hexec⟩ := exec_smp_noEdge_frame hflight
    obtain ⟨t, ovf, outcomes, hrun⟩ :=
      ih (s := { s with dec := { s.dec with t := t₁, ovf := ovf₁, outcomes := outcomes₁ } }) hflight
    exact ⟨t, ovf, outcomes, by rw [List.replicate_succ, runOps_cons_of_next hexec, hrun]⟩

/-- Settles O9: one sample by its full frame, any number of them by what the frame leaves out. -/
theorem smpWithoutEdgeOnlyAdvancesTime : Obligations.SmpWithoutEdgeOnlyAdvancesTime := by
  refine ⟨fun s hflight hovf hmode => exec_smp_noEdge hflight (decRefusal_run hovf hmode), fun n s hflight => ?_⟩
  obtain ⟨t, ovf, outcomes, hrun⟩ := runOps_smp_noEdge_frame n hflight
  exact ⟨_, hrun, rfl, rfl, rfl, rfl, rfl, rfl⟩

/-! ### A byte is its eight samples -/

/-- A sample reads and writes no reported outcome. -/
theorem takeSample_withOutcomes (v : Bool) (d : Dec) (l : List OpOutcome) :
    takeSample v { d with outcomes := l } = { takeSample v d with outcomes := l } := by
  rcases takeSample_cases v d with rfl | ⟨rfl, hlevel⟩ | ⟨rfl, hlevel⟩
  · rw [takeSample_noEdge]
    exact takeSample_noEdge { d with outcomes := l }
  · rw [takeSample_fall hlevel]
    exact takeSample_fall (d := { d with outcomes := l }) hlevel
  · rw [takeSample_rise hlevel]
    exact takeSample_rise (d := { d with outcomes := l }) hlevel

theorem smpSeq_withOutcomes (vs : List Bool) (d : Dec) (l : List OpOutcome) :
    smpSeq vs { d with outcomes := l } = ((smpSeq vs d).1, { (smpSeq vs d).2 with outcomes := l }) := by
  induction vs generalizing d with
  | nil => rfl
  | cons v vs ih =>
    have href : decRefusal { d with outcomes := l } = decRefusal d := rfl
    rcases hr : decRefusal d with _ | r
    · rw [smpSeq_accepted (href.trans hr), smpSeq_accepted hr, takeSample_withOutcomes, ih]
    · rw [smpSeq_refused (href.trans hr), smpSeq_refused hr]

theorem smpSeq_outcomes (vs : List Bool) (d : Dec) : (smpSeq vs d).2.outcomes = d.outcomes :=
  congrArg (·.2.outcomes) (smpSeq_withOutcomes vs d d.outcomes)

theorem smpSeq_singleton (v : Bool) (d : Dec) : smpSeq [v] d = smpOp v d := by
  rcases hr : decRefusal d with _ | r <;> simp [smpSeq, smpOp, hr]

/-- The samples after a refused one are refused in the same way, so going on past it makes no difference. -/
theorem smpSeq_cons_cons (v w : Bool) (vs : List Bool) (d : Dec) :
    smpSeq (v :: w :: vs) d = smpSeq (w :: vs) (smpOp v d).2 := by
  rcases hr : decRefusal d with _ | r
  · rw [smpSeq_accepted hr, smpOp, hr]
  · rw [(IsDecOp.smp v).refused hr, smpSeq_refused hr, smpSeq_refused hr]

theorem smpOp_flight (v : Bool) (d : Dec) : (smpOp v d).2.flight = d.flight := by
  rcases hr : decRefusal d with _ | r
  · simp [smpOp, hr, takeSample_flight]
  · rw [(IsDecOp.smp v).refused hr]

theorem exec_smp {s : State} (v : Bool) (hflight : s.dec.flight = []) :
    exec (.smp v) s = .next { s with dec := reportDec (smpOp v s.dec) } :=
  runDec_eq (smpOp v) hflight

/-- At least one `SMP` leaves what the samples do in one operation (R105), and reports the outcome of that last. -/
theorem runOps_smp_eq_smpSeq (v : Bool) (vs : List Bool) {s : State} (hflight : s.dec.flight = []) :
    ∃ l, runOps ((v :: vs).map .smp) s = .next { s with dec := { (smpSeq (v :: vs) s.dec).2 with
      outcomes := l ++ [(smpSeq (v :: vs) s.dec).1] } } := by
  induction vs generalizing v s with
  | nil => exact ⟨_, by rw [smpSeq_singleton, List.map_singleton, runOps_singleton, exec_smp v hflight, reportDec]⟩
  | cons w vs ih =>
    obtain ⟨l, hrun⟩ := ih w (s := { s with dec := reportDec (smpOp v s.dec) }) ((smpOp_flight v s.dec).trans hflight)
    refine ⟨l, ?_⟩
    rw [List.map_cons, runOps_cons_of_next (exec_smp v hflight), hrun, smpSeq_cons_cons, reportDec, smpSeq_withOutcomes]

/-- Settles O16: `SMPB` reports the outcome of its samples once, where the eight operations report one each. -/
theorem smpbIsItsEightSamples : Obligations.SmpbIsItsEightSamples := by
  intro b s hflight
  obtain ⟨l, hrun⟩ := runOps_smp_eq_smpSeq (b.getLsbD 7) (byteSamples b).tail hflight
  refine ⟨_, (smpbOp b s.dec).1, hrun, ?_, ?_⟩
  · rw [smpbOp_eq]
    exact List.getLast?_concat
  · calc exec (.smpb b) s = runDec (smpbOp b) s := rfl
      _ = _ := by
        rw [runDec_eq (smpbOp b) hflight, smpbOp_eq, smpSeq_outcomes]
        rfl

/-! ### The end of the stream -/

theorem exec_eos_accepted {s : State} (hflight : s.dec.flight = []) (hrun : decRefusal s.dec = none) :
    exec .eos s = .next { s with dec := { takeSample (!s.dec.lastLevel) s.dec with
      mode := .done, outcomes := s.dec.outcomes ++ [.ok] } } := by
  have hop : eosOp s.dec = (.ok, { takeSample (!s.dec.lastLevel) s.dec with mode := .done }) := by simp [eosOp, hrun]
  calc exec .eos s = runDec eosOp s := rfl
    _ = _ := by rw [runDec_eq _ hflight, hop, takeSample_outcomes]

theorem emittedBetween_of_append {d d' : Dec} {l : List Emitted} (h : d'.emitted = d.emitted ++ l) :
    emittedBetween d d' = l := by
  rw [emittedBetween, h, List.drop_left]

/-- Settles O18: `EOS` is the accepted sample of the opposite level, a falling edge or a rising one (decision D6). -/
theorem eosAppendsOneTransition : Obligations.EosAppendsOneTransition := by
  intro s hflight hovf hmode
  have hrun : decRefusal s.dec = none := decRefusal_run hovf hmode
  have heos := exec_eos_accepted hflight hrun
  refine ⟨⟨_, exec_smp_accepted _ hflight hrun, heos⟩, fun hlevel => ?_, fun hlevel => ?_⟩
  · rw [heos, hlevel, Bool.not_true, takeSample_fall hlevel]
  · obtain ⟨stop, c, rest, hrs⟩ := riseRecords_eq_symbol_cons s.dec.params s.dec.lastRise s.dec.lastFall s.dec.t
    rw [hlevel, Bool.not_false, takeSample_rise hlevel, hrs] at heos
    exact ⟨_, stop, c, _, heos, rfl, rfl, rfl, rfl, rfl, rfl, emittedBetween_of_append rfl⟩

/-- Settles O19: the operation is accepted, and `Done` and the outcome are all it writes (decision D17). -/
theorem srcerrEndsTheDecode : Obligations.SrcerrEndsTheDecode := by
  intro s hflight hovf hmode
  have hop : srcerrOp s.dec = (.srcReadFailure, { s.dec with mode := .done }) := by
    simp [srcerrOp, decRefusal_run hovf hmode]
  calc exec .srcerr s = runDec srcerrOp s := rfl
    _ = _ := by rw [runDec_eq _ hflight, hop]

end Sys2Proof.Machine
end

section
/-! The family of 41_pulse_classifier.md. The class of a pulse by its windows (R126), the Symbol of a rising edge (R120 to R131),
and why the record stream is one unbroken chain (R129). -/

namespace Sys2Proof.Machine

/-! ### The class of a pulse -/

theorem classify_eq_one_iff {p : Params} {n : Nat} : classify p n = .one ↔ p.oneLo ≤ n ∧ n ≤ p.oneHi := by
  unfold classify
  split
  next hone => simp [hone]
  next hone => split <;> simp [hone]

/-- `One` is tried first, so it takes the overlap of the two windows (decision D8). -/
theorem classify_eq_zero_iff {p : Params} {n : Nat} :
    classify p n = .zero ↔ ¬ (p.oneLo ≤ n ∧ n ≤ p.oneHi) ∧ p.zeroLo ≤ n ∧ n ≤ p.zeroHi := by
  unfold classify
  split
  next hone => simp [hone]
  next => split <;> simp [*]

theorem classify_eq_unknown_iff {p : Params} {n : Nat} :
    classify p n = .unknown ↔ ¬ (p.oneLo ≤ n ∧ n ≤ p.oneHi) ∧ ¬ (p.zeroLo ≤ n ∧ n ≤ p.zeroHi) := by
  unfold classify
  split
  next hone => simp [hone]
  next => split <;> simp [*]

theorem classify_default_eq_one {n : Nat} (hlo : 10 ≤ n) (hhi : n ≤ 29) : classify defaultParams n = .one :=
  classify_eq_one_iff.2 ⟨hlo, hhi⟩

theorem classify_default_eq_zero {n : Nat} (hlo : 40 ≤ n) (hhi : n ≤ 79) : classify defaultParams n = .zero :=
  classify_eq_zero_iff.2 ⟨fun ⟨_, (hone : n ≤ 29)⟩ => by omega, hlo, hhi⟩

/-- The default windows are 10 to 29 and 40 to 79 (10_state.md R35). -/
theorem classify_default_eq_unknown {n : Nat} (hone : n < 10 ∨ 29 < n) (hzero : n < 40 ∨ 79 < n) :
    classify defaultParams n = .unknown := by
  simp only [classify_eq_unknown_iff, defaultParams]
  omega

/-- Settles O8: each class by its windows, and the default windows put in. -/
theorem classifyFollowsWindows : Obligations.ClassifyFollowsWindows := by
  refine ⟨fun p n => ⟨classify_eq_one_iff, ?_, ?_⟩, fun n => ⟨fun h => ?_, ?_, fun hlo hhi => ?_, ?_, fun h => ?_⟩⟩
  · rw [classify_eq_zero_iff]
    omega
  · rw [classify_eq_unknown_iff]
    omega
  · exact classify_default_eq_unknown (.inl (by omega)) (.inl (by omega))
  · exact classify_default_eq_one
  · exact classify_default_eq_unknown (.inr (by omega)) (.inl (by omega))
  · exact classify_default_eq_zero
  · exact classify_default_eq_unknown (.inr (by omega)) (.inr (by omega))

/-! ### The Symbol of a rising edge -/

/-- Step 4 before and after `bit_end_max` at once: the Symbol is classified, and its end is capped there (R124). -/
theorem riseRecords_stepFour {p : Params} {lastRise lastFall t : Nat} (hlong : lastFall - lastRise < p.tLong)
    (hgap : lastFall - lastRise + p.tGap < t) :
    ∃ rest, riseRecords p lastRise lastFall t =
      .symbol ⟨lastRise, lastFall, min t (lastRise + p.tBitMax), classify p (lastFall - lastRise)⟩ :: rest := by
  rcases Nat.lt_or_ge t (lastRise + p.tBitMax) with hmax | hmax
  · exact ⟨[], by rw [riseRecords_classified hlong hgap hmax, Nat.min_eq_left hmax.le]⟩
  · exact ⟨_, by rw [riseRecords_boundary hlong hgap hmax, Nat.min_eq_right hmax]⟩

/-- The Symbol that a rising edge makes is the first thing it emits, with the counter beside it, and it stands in REC behind
what was there. -/
theorem exec_smp_rise_symbol {s : State} (hflight : s.dec.flight = []) (hrun : decRefusal s.dec = none)
    (hlevel : s.dec.lastLevel = false) {y : Symbol} {rest : List Record}
    (hrs : riseRecords s.dec.params s.dec.lastRise s.dec.lastFall s.dec.t = .symbol y :: rest) :
    ∃ s' more, exec (.smp true) s = .next s' ∧ emittedBetween s.dec s'.dec = .symbol y s.dec.grpCnt :: more ∧
      (records s'.dec)[s.dec.emitted.length]? = some (.symbol y) := by
  refine ⟨_, _, exec_smp_rise hflight hrun hlevel hrs, emittedBetween_of_append rfl, ?_⟩
  simp [records, groupsOf, recordOf]

/-- Settles O13: steps 2 and 3 give `Unknown` unasked, step 4 asks the windows; from `T_LONG + T_GAP` on a pulse shorter than
`T_LONG` comes to step 4. -/
theorem symbolUnknownExactlyWhen : Obligations.SymbolUnknownExactlyWhen := by
  intro s hflight hovf hmode hlevel p pos
  have hrun : decRefusal s.dec = none := decRefusal_run hovf hmode
  by_cases h : p.tLong ≤ pos ∨ s.dec.t ≤ pos + p.tGap
  · obtain ⟨s', more, hexec, hemit, -⟩ := exec_smp_rise_symbol hflight hrun hlevel (riseRecords_unclassified h)
    refine ⟨s', _, _, _, more, hexec, hemit, iff_of_true rfl (or_assoc.1 (.inl h)), fun hdead hlong => ?_⟩
    omega
  · obtain ⟨hlong, hgap⟩ : pos < p.tLong ∧ pos + p.tGap < s.dec.t := by omega
    obtain ⟨rest, hrs⟩ := riseRecords_stepFour hlong hgap
    obtain ⟨s', more, hexec, hemit, -⟩ := exec_smp_rise_symbol hflight hrun hlevel hrs
    refine ⟨s', _, _, _, more, hexec, hemit, ?_, fun _ _ => rfl⟩
    rw [← or_assoc, or_iff_right h]
    exact classify_eq_unknown_iff

/-- Settles O14: every duration below 100 comes to step 4, whose class the default windows give; 100 is long (R122). -/
theorem thresholdBoundariesClassify : Obligations.ThresholdBoundariesClassify := by
  intro n s hflight hovf hmode hlevel hparams hfall ht
  have hrun : decRefusal s.dec = none := decRefusal_run hovf hmode
  have hpos : s.dec.lastFall - s.dec.lastRise = n := by omega
  rcases Nat.lt_or_ge n 100 with hn | hn
  · have hlong : s.dec.lastFall - s.dec.lastRise < s.dec.params.tLong := by rw [hpos, hparams]; exact hn
    have hgap : s.dec.lastFall - s.dec.lastRise + s.dec.params.tGap < s.dec.t := by rw [hpos, hparams]; exact ht
    obtain ⟨rest, hrs⟩ := riseRecords_stepFour hlong hgap
    obtain ⟨s', -, hexec, -, hsymbol⟩ := exec_smp_rise_symbol hflight hrun hlevel hrs
    rw [hpos, hparams] at hsymbol
    refine ⟨s', hexec, fun h => ?_, fun h => ?_, fun h => ?_, fun h => by omega⟩
    · rwa [classify_default_eq_unknown (by omega) (by omega)] at hsymbol
    · rwa [classify_default_eq_one (by omega) (by omega)] at hsymbol
    · rwa [classify_default_eq_zero (by omega) (by omega)] at hsymbol
  · have hlong : s.dec.params.tLong ≤ s.dec.lastFall - s.dec.lastRise := by rw [hpos, hparams]; exact hn
    obtain ⟨s', -, hexec, -, hsymbol⟩ := exec_smp_rise_symbol hflight hrun hlevel (riseRecords_unclassified (.inl hlong))
    exact ⟨s', hexec, fun h => by omega, fun h => by omega, fun h => by omega, fun _ => hsymbol⟩

/-! ### The chain of records -/

/-- A Symbol after an unbroken stream goes on from where that ends: whether it follows a Symbol does not matter to it. -/
theorem chainEnd_append_symbol {l : List Record} {start stop : Nat} {afterSymbol : Bool}
    (h : chainEnd start afterSymbol l = some stop) (y : Symbol) (rest : List Record) :
    chainEnd start afterSymbol (l ++ .symbol y :: rest) = chainEnd stop false (.symbol y :: rest) := by
  induction l generalizing start afterSymbol with
  | nil =>
    obtain rfl : start = stop := Option.some.inj h
    rfl
  | cons r l ih =>
    cases r with
    | symbol z =>
      rw [chainEnd] at h
      split at h
      next hz => exact (if_pos hz).trans (ih h)
      next => cases h
    | boundary f =>
      rw [chainEnd] at h
      split at h
      next hf => exact (if_pos hf).trans (ih h)
      next => cases h

/-- The records of a rising edge lead from the rising edge before it to this one: a capped Symbol is followed by the boundary
that fills the gap. -/
theorem chainEnd_riseRecords (p : Params) {lastRise lastFall : Nat} (t : Nat) (horder : lastRise ≤ lastFall) :
    chainEnd lastRise false (riseRecords p lastRise lastFall t) = some t := by
  rcases riseRecords_cases p lastRise lastFall t with ⟨-, e⟩ | ⟨-, -, -, e⟩ | ⟨-, -, hmax, e⟩
  · simp [e, chainEnd, horder]
  · simp [e, chainEnd, horder]
  · simp [e, chainEnd, horder, hmax]

theorem records_takeSample_rise {d : Dec} (hlevel : d.lastLevel = false) :
    records (takeSample true d) = records d ++ riseRecords d.params d.lastRise d.lastFall d.t := by
  simp [takeSample_rise hlevel, records, groupsOf_records]

theorem Dec.EdgesOrdered.rise_le_fall {d : Dec} (h : d.EdgesOrdered) (hlevel : d.lastLevel = false) :
    d.lastRise ≤ d.lastFall := by
  have hlow := h.low hlevel
  omega

/-- Only a rising edge emits, and it moves the end of the chain to itself. -/
theorem takeSample_keeps_streamInv {d : Dec} (v : Bool) (hedges : d.EdgesOrdered) (h : StreamInv d) :
    StreamInv (takeSample v d) := by
  rcases takeSample_cases v d with rfl | ⟨rfl, hlevel⟩ | ⟨rfl, hlevel⟩
  · rw [takeSample_noEdge]; exact h
  · rw [takeSample_fall hlevel]; exact h
  · have hrise : (takeSample true d).lastRise = d.t := by rw [takeSample_rise hlevel]
    obtain ⟨stop, c, rest, hrs⟩ := riseRecords_eq_symbol_cons d.params d.lastRise d.lastFall d.t
    calc chainEnd 0 false (records (takeSample true d))
        = chainEnd 0 false (records d ++ riseRecords d.params d.lastRise d.lastFall d.t) := by
          rw [records_takeSample_rise hlevel]
      _ = chainEnd d.lastRise false (riseRecords d.params d.lastRise d.lastFall d.t) := by
          rw [hrs, chainEnd_append_symbol h]
      _ = some d.t := chainEnd_riseRecords _ _ (hedges.rise_le_fall hlevel)
      _ = some (takeSample true d).lastRise := by rw [hrise]

/-- Settles O47: among the updates that a step is made of only a sample and a reset touch the chain, and what a sample needs
of the edges is in the decoder's invariant, which is kept along with it. -/
theorem stepKeepsRecordChain : Obligations.StepKeepsRecordChain := by
  intro s s' hinv hstream hs
  refine (step_keeps_dec (fun d => DecInv d ∧ StreamInv d)
    (hreport := fun _ _ h => h)
    (hdone := fun _ h => h)
    (hflight := fun _ _ h => h)
    (hsample := fun v d hrun ⟨hd, h⟩ => ?_)
    (hreset := fun d ⟨hd, _⟩ => ⟨resetDec_keeps_decInv hd, streamInv_reset d.timeWidth⟩)
    (hparam := fun _ _ _ hopen hlegal hfit ⟨hd, h⟩ => ⟨setParam_keeps_decInv hopen hlegal hfit hd, h⟩)
    (hdrive := fun _ _ hopen hwf hfit ⟨hd, h⟩ =>
      ⟨newParams_keeps_decInv hopen hwf (fun r => .inl (paramsFit_iff.1 hfit r)) hd, h⟩)
    ⟨hinv, hstream⟩ hs).2
  obtain ⟨-, hedges, -⟩ := decInv_iff.1 hd
  exact ⟨takeSample_keeps_decInv v hrun hd, takeSample_keeps_streamInv v hedges h⟩

end Sys2Proof.Machine
end

section
/-! The family of 42_frame_boundary.md. Which rising edges emit a Frame Boundary (R150, R151, R153). -/

namespace Sys2Proof.Machine

/-- R153 of the records: step 2 and step 3 have not fired, and step 4 stands at or after `bit_end_max`. -/
theorem exists_boundary_mem_riseRecords_iff (p : Params) (lastRise lastFall t : Nat) :
    (∃ f, .boundary f ∈ riseRecords p lastRise lastFall t) ↔
      lastFall - lastRise < p.tLong ∧ lastFall - lastRise + p.tGap < t ∧ lastRise + p.tBitMax ≤ t := by
  rcases riseRecords_cases p lastRise lastFall t with ⟨h, e⟩ | ⟨-, -, hmax, e⟩ | ⟨hlong, hgap, hmax, e⟩
  · refine iff_of_false (by simp [e]) ?_
    omega
  · refine iff_of_false (by simp [e]) ?_
    omega
  · exact iff_of_true ⟨_, by rw [e]; exact .tail _ (.head _)⟩ ⟨hlong, hgap, hmax⟩

/-- A Frame Boundary has no side-band value, so `Emit` puts it out as it is (R156). -/
theorem boundary_mem_map_recordOf {f : FrameBoundary} {l : List Emitted} :
    .boundary f ∈ l.map recordOf ↔ .boundary f ∈ l := by
  refine ⟨fun h => ?_, fun h => List.mem_map.2 ⟨_, h, rfl⟩⟩
  obtain ⟨e, he, heq⟩ := List.mem_map.1 h
  cases e with
  | symbol y g => cases heq
  | boundary f' =>
    cases heq
    exact he

/-- The emissions of an accepted rising edge are its records, numbered by the grouping counter. -/
theorem exec_smp_rise_emits {s : State} (hflight : s.dec.flight = []) (hrun : decRefusal s.dec = none)
    (hlevel : s.dec.lastLevel = false) {rs : List Record}
    (hrs : riseRecords s.dec.params s.dec.lastRise s.dec.lastFall s.dec.t = rs) :
    ∃ s', exec (.smp true) s = .next s' ∧
      emittedBetween s.dec s'.dec = (groupsOf s.dec.params.group s.dec.grpCnt rs).1 :=
  ⟨_, exec_smp_rise hflight hrun hlevel hrs, emittedBetween_of_append rfl⟩

/-- A rising edge by steps 2 and 3 emits one `Unknown` Symbol that ends there, and no boundary. -/
theorem exec_smp_rise_unclassified {s : State} (hflight : s.dec.flight = []) (hrun : decRefusal s.dec = none)
    (hlevel : s.dec.lastLevel = false)
    (h : s.dec.params.tLong ≤ s.dec.lastFall - s.dec.lastRise ∨
      s.dec.t ≤ s.dec.lastFall - s.dec.lastRise + s.dec.params.tGap) :
    ∃ s', exec (.smp true) s = .next s' ∧
      (emittedBetween s.dec s'.dec).map recordOf = [.symbol ⟨s.dec.lastRise, s.dec.lastFall, s.dec.t, .unknown⟩] := by
  obtain ⟨s', hexec, hemit⟩ := exec_smp_rise_emits hflight hrun hlevel (riseRecords_unclassified h)
  exact ⟨s', hexec, by rw [hemit, groupsOf_records]⟩

/-- Settles O12: the emissions are the records of the edge, of which only step 4 at or after `bit_end_max` has a boundary; the
counter-examples are cut off by step 2 (100 <= 300 - 200) and by step 3 (120 <= 50 + 90). -/
theorem frameBoundaryExactlyWhen : Obligations.FrameBoundaryExactlyWhen := by
  refine ⟨?_, fun s hflight hovf hmode hlevel hparams hrise hfall ht => ?_,
    fun s hflight hovf hmode hlevel hparams hrise hfall ht => ?_⟩
  · intro s hflight hovf hmode hlevel pos
    obtain ⟨s', hexec, hemit⟩ := exec_smp_rise_emits hflight (decRefusal_run hovf hmode) hlevel rfl
    refine ⟨s', hexec, ?_, fun hlong hgap hmax => ?_⟩
    · simp only [hemit, ← boundary_mem_map_recordOf, groupsOf_records]
      exact exists_boundary_mem_riseRecords_iff _ _ _ _
    · rw [hemit, riseRecords_boundary hlong hgap hmax]
      exact ⟨_, _, rfl⟩
  · have hlong : s.dec.params.tLong ≤ s.dec.lastFall - s.dec.lastRise := by rw [hparams, hrise, hfall]; decide
    have hsymbol := exec_smp_rise_unclassified hflight (decRefusal_run hovf hmode) hlevel (.inl hlong)
    rwa [hrise, hfall, ht] at hsymbol
  · have hgap : s.dec.t ≤ s.dec.lastFall - s.dec.lastRise + s.dec.params.tGap := by
      rw [hparams, hrise, hfall, ht]; decide
    have hsymbol := exec_smp_rise_unclassified hflight (decRefusal_run hovf hmode) hlevel (.inr hgap)
    rwa [hrise, hfall, ht] at hsymbol

end Sys2Proof.Machine
end

section
/-! The family of 43_command_encoder.md. What `ENC` returns, by its operands (R165 to R171), and the four wire words on their
way to the sink (R172 to R175). -/

namespace Sys2Proof.Machine

/-! ### What ENC returns -/

/-- `ENC` "reads no state and writes no state" (R165): it returns its word in every state. -/
theorem exec_enc (i : SendInstr) (s : State) : exec (.enc i) s = .next (s.withEncResult (encWord i)) := rfl

/-- Settles O4: the encoder's word is the packing of its operands, under the tag of its mode. -/
theorem encReturnsPackedOperands : Obligations.EncReturnsPackedOperands := by
  intro i s
  rw [exec_enc, encWord_eq]
  cases i with
  | mk parts skip rep preamble data => cases parts <;> rfl

/-- Settles O1: the values of the rule are computed, and `ENC` returns the word they come to. -/
theorem encReproducesReferenceVector : Obligations.EncReproducesReferenceVector := by
  have hword : encWord ⟨.all, 0#8, 1#8, 0x0007#16, 0x312345678#64⟩ = 0xE001003B12345678#64 := rfl
  refine ⟨rfl, rfl, rfl, rfl, rfl, rfl, hword, rfl, fun s => ?_⟩
  rw [exec_enc, hword]
  rfl

/-! ### The masking laws -/

/-- The encoder's word depends on the operands only through the fields that it packs (R167). -/
theorem encWord_congr {i j : SendInstr} (hparts : i.parts = j.parts)
    (hskip : i.skip.extractLsb' 0 5 = j.skip.extractLsb' 0 5) (hrep : i.rep = j.rep)
    (hpre : i.preamble.extractLsb' 0 13 = j.preamble.extractLsb' 0 13)
    (hdata : i.data.extractLsb' 0 35 = j.data.extractLsb' 0 35) : encWord i = encWord j := by
  rw [encWord_eq, encWord_eq, hparts, hskip, hrep, hpre, hdata]

/-- The low five bits of `skip` are `skip mod 32`. -/
theorem skip5_eq_ofNat_mod (skip : BitVec 8) : skip.extractLsb' 0 5 = BitVec.ofNat 5 (skip.toNat % 32) := by
  apply BitVec.eq_of_toNat_eq
  rw [BitVec.extractLsb'_toNat, BitVec.toNat_ofNat, Nat.shiftRight_zero]
  exact (Nat.mod_mod _ _).symm

/-- Settles O5: three operands count by the field that is packed of them, `repeat` has a byte of its own; the examples are
computed. -/
theorem encoderMaskingLaws : Obligations.EncoderMaskingLaws := by
  refine ⟨fun i data h => encWord_congr rfl rfl rfl rfl h.symm, fun i skip h => encWord_congr rfl h.symm rfl rfl rfl,
    fun i => ?_, fun i pre h => encWord_congr rfl rfl rfl h.symm rfl, commandByte_encWord_one, fun i s => ⟨_, exec_enc i s⟩,
    rfl, rfl, rfl, rfl, rfl, rfl⟩
  rw [commandByte_encWord_zero, headerByte_skip5, BitVec.extractLsb'_toNat, Nat.shiftRight_zero]

/-! ### The header byte read back -/

/-- The header byte of a mode gives back that mode and `skip[4:0]` (R83). -/
theorem decodeHeader_headerByte (parts : Parts) (skip : BitVec 8) :
    decodeHeader (headerByte (partsTag parts) skip) = some (parts, skip.extractLsb' 0 5) := by
  rw [decodeHeader, headerByte_tag, headerByte_skip5]
  cases parts <;> rfl

/-- Settles O7: byte 0 is the header byte, and `skip mod 32` is `skip` up to 31. -/
theorem headerRoundTrip : Obligations.HeaderRoundTrip := by
  have hmod : ∀ i : SendInstr,
      decodeHeader (commandByte (encWord i) 0) = some (i.parts, BitVec.ofNat 5 (i.skip.toNat % 32)) := fun i => by
    rw [commandByte_encWord_zero, decodeHeader_headerByte, skip5_eq_ofNat_mod]
  refine ⟨fun i hskip => ?_, hmod⟩
  have hsmall : i.skip.toNat % 32 = i.skip.toNat := Nat.mod_eq_of_lt (Nat.lt_succ_of_le hskip)
  rw [hmod, hsmall]

/-! ### The wire words of Commands -/

/-- What a Command's wire word does is its transmission, as by `SEND` (log entry 3). -/
theorem exec_commandInstr (parts : Parts) (k : BitVec 5) (r : BitVec 8) (p : BitVec 13) (d : BitVec 35) (s : State) :
    exec (commandInstr parts k r p d) s = runTx (sendOp (packCommand (partsTag parts) k r p d)) s := by
  cases parts <;> rfl

theorem exec_commandInstr_open (parts : Parts) (k : BitVec 5) (r : BitVec 8) (p : BitVec 13) (d : BitVec 35) {s : State}
    (hflight : s.tx.flight = none) (hmode : s.tx.mode = .opened) :
    exec (commandInstr parts k r p d) s =
      .next { s with tx := writeBlock (packCommand (partsTag parts) k r p d) s.tx } := by
  rw [exec_commandInstr, runTx_eq _ hflight, sendOp_open hmode (isCommand_packCommand parts k r p d)]

/-- Settles O31: each of the three words is the packing of its fields under the tag of its mode, written to the sink. -/
theorem commandWireWordsGoToSink : Obligations.CommandWireWordsGoToSink := by
  intro k r p d s hflight hmode low put
  have hexec := fun parts => exec_commandInstr_open parts k r p d hflight hmode
  have hbytes : ∀ tag, commandBytes (packCommand tag k r p d) = (tag ++ k) :: low :=
    fun tag => commandBytes_packCommand tag k r p d
  refine ⟨?_, fun hans => ?_, ?_⟩
  · intro n rest hans after
    have hword : ∀ parts, exec (commandInstr parts k r p d) s = .next (after (partsTag parts ++ k)) := fun parts => by
      rw [hexec, writeBlock_takes hans, hbytes]
    exact ⟨hword .preamble, hword .data, hword .all⟩
  · obtain ⟨n, hwrite⟩ := writeBlock_free hans
    refine ⟨n, ?_⟩
    intro after
    have hword : ∀ parts, exec (commandInstr parts k r p d) s = .next (after (partsTag parts ++ k)) := fun parts => by
      rw [hexec, hwrite, hbytes]
    exact ⟨hword .preamble, hword .data, hword .all⟩
  · intro n rest hans after
    have hword : ∀ parts, exec (commandInstr parts k r p d) s = .next (after (partsTag parts)) := fun parts => by
      rw [hexec, writeBlock_stalls hans, hbytes]
      rfl
    exact ⟨hword .preamble, hword .data, hword .all⟩

/-! ### The sentinel's wire word, and wire words once closed -/

theorem exec_cmdEnd_open {s : State} (hflight : s.tx.flight = none) (hmode : s.tx.mode = .opened) :
    exec .cmdEnd s = .next { s with tx := writeBlock sentinel { s.tx with mode := .closed } } := by
  rw [← closeOp_open hmode]
  exact runTx_eq closeOp hflight

theorem exec_cmdEnd_closed {s : State} (hflight : s.tx.flight = none) (hmode : s.tx.mode = .closed) :
    exec .cmdEnd s = .next { s with tx := reportTx .txClosed s.tx } := by
  rw [← closeOp_closed hmode]
  exact runTx_eq closeOp hflight

theorem exec_commandInstr_closed (parts : Parts) (k : BitVec 5) (r : BitVec 8) (p : BitVec 13) (d : BitVec 35) {s : State}
    (hflight : s.tx.flight = none) (hmode : s.tx.mode = .closed) :
    exec (commandInstr parts k r p d) s = .next { s with tx := reportTx .txClosed s.tx } := by
  rw [exec_commandInstr, runTx_eq _ hflight, sendOp_closed _ hmode]

/-- Settles O32: the sentinel's word closes before its block is written; once closed each of the four words is refused. -/
theorem sentinelWireWordCloses : Obligations.SentinelWireWordCloses := by
  constructor
  · intro s hflight hmode put
    have hexec := exec_cmdEnd_open hflight hmode
    refine ⟨fun n rest hans => ?_, fun hans => ?_, fun n rest hans => ?_⟩
    · rw [hexec, writeBlock_takes (x := { s.tx with mode := .closed }) hans, commandBytes_sentinel_take]
    · obtain ⟨n, hwrite⟩ := writeBlock_free (x := { s.tx with mode := .closed }) hans
      refine ⟨n, ?_⟩
      rw [hexec, hwrite, commandBytes_sentinel_take]
    · have hzeros : (commandBytes sentinel).take n.val = List.replicate n.val 0#8 :=
        commandBytes_sentinel_take n.castSucc
      rw [hexec, writeBlock_stalls (x := { s.tx with mode := .closed }) hans, hzeros]
  · intro k r p d s i hflight hmode hi
    obtain rfl | rfl | rfl | rfl := hi
    · exact exec_cmdEnd_closed hflight hmode
    · exact exec_commandInstr_closed .preamble k r p d hflight hmode
    · exact exec_commandInstr_closed .data k r p d hflight hmode
    · exact exec_commandInstr_closed .all k r p d hflight hmode

end Sys2Proof.Machine
end

section
/-! The family of 44_transmit_endpoint.md, the operations of the endpoint: `SEND` and `CLOSE` by its state and by the sink's
answer (R185 to R190), and that an endpoint whose sink never answers hangs alone (R192). -/

namespace Sys2Proof.Machine

/-! ### SEND and CLOSE by the state of the endpoint -/

section
variable {s : State} (hflight : s.tx.flight = none)
include hflight

theorem exec_send_open {c : CmdWord} (hmode : s.tx.mode = .opened) (hc : isCommand c = true) :
    exec (.send c) s = .next { s with tx := writeBlock c s.tx } := by
  rw [← sendOp_open hmode hc]
  exact runTx_eq (sendOp c) hflight

theorem exec_send_badCommand {c : CmdWord} (hmode : s.tx.mode = .opened) (hc : isCommand c = false) :
    exec (.send c) s = .next { s with tx := reportTx .badCommand s.tx } := by
  rw [← sendOp_badCommand hmode hc]
  exact runTx_eq (sendOp c) hflight

theorem exec_send_closed (c : CmdWord) (hmode : s.tx.mode = .closed) :
    exec (.send c) s = .next { s with tx := reportTx .txClosed s.tx } := by
  rw [← sendOp_closed c hmode]
  exact runTx_eq (sendOp c) hflight

theorem exec_close_open (hmode : s.tx.mode = .opened) :
    exec .close s = .next { s with tx := writeBlock sentinel { s.tx with mode := .closed } } := by
  rw [← closeOp_open hmode]
  exact runTx_eq closeOp hflight

theorem exec_close_closed (hmode : s.tx.mode = .closed) :
    exec .close s = .next { s with tx := reportTx .txClosed s.tx } := by
  rw [← closeOp_closed hmode]
  exact runTx_eq closeOp hflight

/-! ### The sink's answer given beforehand -/

theorem exec_send_takes {c : CmdWord} {k : Fin 9} {rest : List SinkAnswer} (hmode : s.tx.mode = .opened)
    (hc : isCommand c = true) (hans : s.tx.answers = .takes k :: rest) :
    exec (.send c) s = .next { s with tx := { s.tx with
      sink := s.tx.sink ++ (commandBytes c).take k.val
      outcomes := s.tx.outcomes ++ [sinkOutcome k]
      answers := rest } } := by
  rw [exec_send_open hflight hmode hc, writeBlock_takes hans]

theorem exec_close_takes {k : Fin 9} {rest : List SinkAnswer} (hmode : s.tx.mode = .opened)
    (hans : s.tx.answers = .takes k :: rest) :
    exec .close s = .next { s with tx := { s.tx with
      mode := .closed
      sink := s.tx.sink ++ List.replicate k.val 0#8
      outcomes := s.tx.outcomes ++ [sinkOutcome k]
      answers := rest } } := by
  rw [exec_close_open hflight hmode, writeBlock_takes (x := { s.tx with mode := .closed }) hans,
    commandBytes_sentinel_take]

end

theorem isCommand_of_commandTag {c : CmdWord}
    (h : c.extractLsb' 61 3 = 0b101#3 ∨ c.extractLsb' 61 3 = 0b110#3 ∨ c.extractLsb' 61 3 = 0b111#3) :
    isCommand c = true := by
  obtain h | h | h := h <;> simp [isCommand, wordTag, h]

/-- Settles O24: the tag makes the word a Command, and an open endpoint writes its bytes as far as the sink takes them. -/
theorem sendWritesCommandBytes : Obligations.SendWritesCommandBytes := by
  intro c s hflight hmode htag bytes
  have hc := isCommand_of_commandTag htag
  have hbytes : commandBytes c = bytes := rfl
  rw [← hbytes]
  refine ⟨fun rest hans => exec_send_takes hflight hmode hc hans, fun k rest hans => ?_, fun hans => ?_⟩
  · rw [exec_send_takes hflight hmode hc hans, sinkOutcome_castSucc]
    rfl
  · obtain ⟨k, hwrite⟩ := writeBlock_free hans
    exact ⟨k, by rw [exec_send_open hflight hmode hc, hwrite]⟩

/-- Settles O26: the endpoint is closed before the sentinel, whose first `k` bytes are zeros, is written. -/
theorem closeWritesSentinelAndCloses : Obligations.CloseWritesSentinelAndCloses := by
  intro s hflight hmode
  refine ⟨fun rest hans => exec_close_takes hflight hmode hans, fun k rest hans => ?_, fun hans => ?_⟩
  · rw [exec_close_takes hflight hmode hans, sinkOutcome_castSucc]
    rfl
  · obtain ⟨k, hwrite⟩ := writeBlock_free (x := { s.tx with mode := .closed }) hans
    exact ⟨k, by rw [exec_close_open hflight hmode, hwrite, commandBytes_sentinel_take]⟩

/-- Settles O27: by the endpoint's state, and by a tag that no Command has. -/
theorem endpointRefusals : Obligations.EndpointRefusals := fun c _ hflight =>
  ⟨fun hmode => ⟨exec_send_closed hflight c hmode, exec_close_closed hflight hmode⟩,
    fun hmode htag => exec_send_badCommand hflight hmode (isCommand_of_reservedTag htag)⟩

/-! ### A sink that never answers -/

/-- Settles O28: the block stays in flight where one is written; a refused operation asks the sink nothing. -/
theorem silentSinkLeavesWriteUnfinished : Obligations.SilentSinkLeavesWriteUnfinished := by
  intro c s k rest hflight hans
  refine ⟨fun hmode hc => ?_, fun hmode => ?_, fun hmode hc => exec_send_badCommand hflight hmode hc,
    fun hmode => ⟨exec_send_closed hflight c hmode, exec_close_closed hflight hmode⟩⟩
  · rw [exec_send_open hflight hmode hc, writeBlock_stalls hans]
  · have hzeros : (commandBytes sentinel).take k.val = List.replicate k.val 0#8 := commandBytes_sentinel_take k.castSucc
    rw [exec_close_open hflight hmode, writeBlock_stalls (x := { s.tx with mode := .closed }) hans, hzeros]

/-- A DEC operation presented to a decoder with nothing in flight runs, whatever TX is. -/
theorem step_dec_op {s : State} {p : Presented} {i : Instr} {rest : List Input} (hs : s.inputs = .op p :: rest)
    (hp : decode p = .instr i) (hi : decInstr i = true) (hflight : s.dec.flight = []) :
    ∃ d, ∀ x, step { s with tx := x } = .next { s with dec := d, tx := x, inputs := rest } := by
  obtain ⟨f, hf⟩ := exec_dec hi
  refine ⟨reportDec (f s.dec), fun x => ?_⟩
  rw [step_op (s := { s with tx := x }) hs, present_instr hp, hf]
  exact runDec_eq f hflight

/-- With a block in flight only a reset of TX or a clock edge changes TX: every operation of the endpoint is refused. -/
theorem step_tx_of_busy {s s' : State} (h : step s = .next s') (hbusy : s.tx.flight ≠ none) (hreset : resetsTx s = false)
    (hclock : ∀ p rest, s.inputs ≠ .clock p :: rest) : s'.tx = s.tx := by
  rcases step_cases h with ⟨-, htx⟩ | ⟨i, rest, hexec⟩ | ⟨dec, tx, rest, hi, rfl⟩ | ⟨r, v, rest, -, -, -, -, htx, -⟩ |
      ⟨p, rest, hi, -⟩
  · exact htx
  · rcases exec_tx_cases hexec with htx | ⟨hidle, -⟩
    · exact htx
    · exact absurd hidle hbusy
  · obtain rfl : tx = false := by simpa [resetsTx, hi] using hreset
    rfl
  · exact htx
  · exact absurd hi (hclock p rest)

/-- Settles O29: an operation of DEC does not look at TX, and an endpoint with a block in flight refuses its own. -/
theorem hungEndpointHangsAlone : Obligations.HungEndpointHangsAlone := by
  refine ⟨fun p i rest s hs hp hi hflight => ?_, fun s s' hbusy h hreset hclock => step_tx_of_busy h hbusy hreset hclock⟩
  obtain ⟨d, hany⟩ := step_dec_op hs hp hi hflight
  exact ⟨d, hany s.tx, hany⟩

end Sys2Proof.Machine
end

section
/-! The family of 44_transmit_endpoint.md, the session invariant (R193). A block goes to SINK in one step at
transaction level or byte by byte in the port form; SINK stays whole blocks, then the first bytes of the one in flight. -/

namespace Sys2Proof.Machine

/-! ### The invariant by its parts -/

/-- What an endpoint of this state may have in flight: a Command while open, the sentinel once closed. -/
def IsBlock (m : TxMode) (w : CmdWord) : Prop := (m = .opened → isCommand w = true) ∧ (m = .closed → w = sentinel)

/-- Without a sink failure SINK is whole Commands and then the given bytes. -/
def CommandsThen (x : Tx) (tail : List Byte) : Prop :=
  noSinkFailure x → ∃ cs : List CmdWord, (∀ c ∈ cs, isCommand c = true) ∧ x.sink = cs.flatMap commandBytes ++ tail

theorem isBlock_command {c : CmdWord} (hc : isCommand c = true) : IsBlock .opened c := ⟨fun _ => hc, nofun⟩

theorem isBlock_sentinel : IsBlock .closed sentinel := ⟨nofun, fun _ => rfl⟩

theorem sessionInv_flight_iff {x : Tx} {f : TxFlight} (hflight : x.flight = some f) :
    SessionInv x ↔ IsBlock x.mode f.word ∧ CommandsThen x ((commandBytes f.word).take f.sent.val) := by
  simp [SessionInv, IsBlock, CommandsThen, sinkTail, hflight]

theorem sessionInv_idle_iff {x : Tx} (hflight : x.flight = none) : SessionInv x ↔ CommandsThen x (sinkTail x) := by
  simp [SessionInv, CommandsThen, hflight]

theorem sessionInv_open_iff {x : Tx} (hflight : x.flight = none) (hmode : x.mode = .opened) :
    SessionInv x ↔ CommandsThen x [] := by
  rw [sessionInv_idle_iff hflight, sinkTail, hflight, hmode]

theorem noSinkFailure_of_append {x x' : Tx} {l : List OpOutcome} (houtcomes : x'.outcomes = x.outcomes ++ l)
    (h : noSinkFailure x') : noSinkFailure x := fun k hk => h k (houtcomes ▸ List.mem_append_left l hk)

/-- A failure of the sink leaves nothing to show. -/
theorem commandsThen_of_failure {x : Tx} {k : Fin 8} (hk : .sinkWriteFailure k ∈ x.outcomes) (tail : List Byte) :
    CommandsThen x tail := fun h => absurd hk (h k)

theorem CommandsThen.append {x x' : Tx} {tail bytes : List Byte} {l : List OpOutcome} (h : CommandsThen x tail)
    (houtcomes : x'.outcomes = x.outcomes ++ l) (hsink : x'.sink = x.sink ++ bytes) : CommandsThen x' (tail ++ bytes) := by
  intro hok
  obtain ⟨cs, hcs, hx⟩ := h (noSinkFailure_of_append houtcomes hok)
  exact ⟨cs, hcs, by rw [hsink, hx, List.append_assoc]⟩

/-- A whole block ends its operation: a Command joins the others, the sentinel stands last. -/
theorem sessionInv_of_wholeBlock {x : Tx} {w : CmdWord} (hflight : x.flight = none) (hblock : IsBlock x.mode w)
    (h : CommandsThen x (commandBytes w)) : SessionInv x := by
  obtain ⟨hopen, hclosed⟩ := hblock
  rw [sessionInv_idle_iff hflight, sinkTail, hflight]
  rcases hmode : x.mode
  · intro hok
    obtain ⟨cs, hcs, hx⟩ := h hok
    exact ⟨cs ++ [w], by simpa [or_imp, forall_and] using ⟨hcs, hopen hmode⟩, by simpa using hx⟩
  · exact hclosed hmode ▸ h

/-! ### What an operation of the endpoint keeps -/

theorem reportTx_keeps_sessionInv (o : OpOutcome) {x : Tx} (h : SessionInv x) : SessionInv (reportTx o x) := by
  obtain ⟨hblock, hsink⟩ := h
  exact ⟨hblock, fun hok => hsink (noSinkFailure_of_append (x' := reportTx o x) rfl hok)⟩

/-- A block written in one step is whole, or the sink failed, or its first bytes stand behind the Commands. -/
theorem writeBlock_keeps_sessionInv {w : CmdWord} {x : Tx} (hflight : x.flight = none) (hblock : IsBlock x.mode w)
    (h : CommandsThen x []) : SessionInv (writeBlock w x) := by
  obtain ⟨hmode, -, ⟨k, hsink, houtcomes, hflight'⟩ | ⟨k, hsink, houtcomes, hflight'⟩⟩ := writeBlock_cases w x
  · rw [hflight] at hflight'
    rcases Fin.eq_castSucc_or_eq_last k with ⟨n, rfl⟩ | rfl
    · rw [sinkOutcome_castSucc] at houtcomes
      exact (sessionInv_idle_iff hflight').2 (commandsThen_of_failure (k := n) (by simp [houtcomes]) _)
    · exact sessionInv_of_wholeBlock hflight' (hmode ▸ hblock) (h.append houtcomes hsink)
  · exact (sessionInv_flight_iff hflight').2
      ⟨hmode ▸ hblock, h.append (l := []) (by simp [houtcomes]) hsink⟩

theorem sendOp_keeps_sessionInv (c : CmdWord) {x : Tx} (hflight : x.flight = none) (h : SessionInv x) :
    SessionInv (sendOp c x) := by
  rcases sendOp_cases c x with ⟨-, e⟩ | ⟨-, -, e⟩ | ⟨hmode, hc, e⟩ <;> rw [e]
  · exact reportTx_keeps_sessionInv _ h
  · exact reportTx_keeps_sessionInv _ h
  · exact writeBlock_keeps_sessionInv hflight (hmode ▸ isBlock_command hc) ((sessionInv_open_iff hflight hmode).1 h)

theorem closeOp_keeps_sessionInv {x : Tx} (hflight : x.flight = none) (h : SessionInv x) : SessionInv (closeOp x) := by
  rcases closeOp_cases x with ⟨-, e⟩ | ⟨hmode, e⟩ <;> rw [e]
  · exact reportTx_keeps_sessionInv _ h
  · exact writeBlock_keeps_sessionInv (x := { x with mode := .closed }) hflight isBlock_sentinel
      ((sessionInv_open_iff hflight hmode).1 h)

/-! ### What a clock edge keeps -/

/-- A block accepted has no byte in SINK yet (log entry 17). -/
theorem sessionInv_of_newBlock {x : Tx} {w : CmdWord} (hblock : IsBlock x.mode w) (h : CommandsThen x []) :
    SessionInv { x with flight := some ⟨w, 0⟩ } :=
  (sessionInv_flight_iff (f := ⟨w, 0⟩) rfl).2 ⟨hblock, h⟩

theorem startSend_keeps_sessionInv (c : CmdWord) {x : Tx} (hflight : x.flight = none) (h : SessionInv x) :
    SessionInv (startSend c x) := by
  rcases hmode : x.mode
  · rcases hc : isCommand c
    · rw [startSend_badCommand hmode hc]
      exact reportTx_keeps_sessionInv _ h
    · rw [startSend_open hmode hc]
      exact sessionInv_of_newBlock (hmode ▸ isBlock_command hc) ((sessionInv_open_iff hflight hmode).1 h)
  · rw [startSend_closed c hmode]
    exact reportTx_keeps_sessionInv _ h

theorem startClose_keeps_sessionInv {x : Tx} (hflight : x.flight = none) (h : SessionInv x) :
    SessionInv (startClose x) := by
  rcases hmode : x.mode
  · rw [startClose_open hmode]
    exact sessionInv_of_newBlock (x := { x with mode := .closed }) isBlock_sentinel
      ((sessionInv_open_iff hflight hmode).1 h)
  · rw [startClose_closed hmode]
    exact reportTx_keeps_sessionInv _ h

theorem startTx_keeps_sessionInv (p : Pins) {x : Tx} (hflight : x.flight = none) (h : SessionInv x) :
    SessionInv (startTx p x) := by
  unfold startTx
  split
  · exact startSend_keeps_sessionInv p.cmdIn hflight h
  · split
    · exact startClose_keeps_sessionInv hflight h
    · exact h

theorem take_succ_commandBytes (w : CmdWord) (n : Fin 8) :
    (commandBytes w).take (n.val + 1) = (commandBytes w).take n.val ++ [commandByte w n.val] := by
  have hlen : n.val < (commandBytes w).length := n.isLt
  rw [List.take_succ_eq_append_getElem hlen, commandBytes_getElem]

/-- The block in flight grows by the byte accepted, ends whole or failed, or waits. -/
theorem flightByte_keeps_sessionInv (p : Pins) {f : TxFlight} {x : Tx} (hflight : x.flight = some f) (h : SessionInv x) :
    SessionInv (flightByte p f x) := by
  obtain ⟨w, n⟩ := f
  obtain ⟨hblock, hsink⟩ := (sessionInv_flight_iff hflight).1 h
  rcases herr : p.sinkErr
  · rcases hready : p.sinkReady
    · rw [flightByte_waiting herr hready]
      exact h
    · by_cases hmore : n.val + 1 < 8
      · rw [flightByte_accepting herr hready hmore, sessionInv_flight_iff rfl, take_succ_commandBytes]
        exact ⟨hblock, hsink.append (l := []) (by simp) rfl⟩
      · obtain rfl : n = 7 := by omega
        rw [flightByte_finishing herr hready]
        exact sessionInv_of_wholeBlock rfl hblock (hsink.append rfl rfl)
  · rw [flightByte_failing herr, sessionInv_idle_iff rfl]
    exact commandsThen_of_failure (k := n) (by simp [reportTx]) _

theorem sessionInv_resetTx (x : Tx) : SessionInv (resetTx x) := sessionInv_reset

theorem clockTx_keeps_sessionInv (p : Pins) {x : Tx} (h : SessionInv x) : SessionInv (clockTx p x) := by
  rcases hrst : p.txRst
  · rcases hflight : x.flight with _ | f
    · rw [clockTx_start hrst hflight]
      exact startTx_keeps_sessionInv p hflight h
    · rw [clockTx_flight hrst hflight]
      exact flightByte_keeps_sessionInv p hflight h
  · simpa [clockTx, hrst] using sessionInv_resetTx (acceptByte p x)

/-- Settles O48: every update that a step can make to TX keeps the invariant; a reset starts a session of its own. -/
theorem stepKeepsSessionInvariant : Obligations.StepKeepsSessionInvariant := by
  intro s s' h hstep
  rcases step_cases hstep with ⟨-, htx⟩ | ⟨i, rest, hexec⟩ | ⟨dec, tx, rest, -, rfl⟩ |
      ⟨r, v, rest, -, -, -, -, htx, -⟩ | ⟨p, rest, -, rfl⟩
  · exact htx ▸ h
  · rcases exec_tx_cases hexec with htx | ⟨hflight, ⟨c, htx⟩ | htx⟩ <;> rw [htx]
    · exact h
    · exact sendOp_keeps_sessionInv c hflight h
    · exact closeOp_keeps_sessionInv hflight h
  · cases tx
    · exact h
    · exact sessionInv_resetTx s.tx
  · exact htx ▸ h
  · exact clockTx_keeps_sessionInv p h

end Sys2Proof.Machine
end

section
/-! The family of 60_exceptions.md. The outcomes as its table tells them apart (R205): the refusals by name, and the codes that
no outcome and no class (30_encoding.md R88) has. -/

namespace Sys2Proof.Machine

theorem isRefusal_iff (o : OpOutcome) :
    isRefusal o = true ↔ o = .txClosed ∨ o = .decDone ∨ o = .badCommand ∨ o = .decTimeOverflow := by
  cases o <;> simp [isRefusal]

/-- Code 7 is reserved (R205). -/
theorem outcomeCode_ne_seven (o : OpOutcome) : outcomeCode o ≠ 7#3 := by
  cases o <;> simp [outcomeCode]

/-- Class `0b11` is "never produced" (R88). -/
theorem classCode_ne_three (c : SymClass) : classCode c ≠ 0b11#2 := by
  cases c <;> simp [classCode]

/-- Settles O51: the codes are the table's (decisions D9, D16), and code 7 and class `0b11` are nobody's. -/
theorem statusAndClassCodes : Obligations.StatusAndClassCodes :=
  ⟨rfl, fun _ => rfl, rfl, rfl, rfl, rfl, rfl, rfl, rfl, rfl, outcomeCode_ne_seven, classCode_ne_three, isRefusal_iff⟩

end Sys2Proof.Machine
end

section
/-! The family of 70_reset_and_hazards.md. What `RESET` does as an event and in the port form (R230 to R232), and when the
machine gives no next state: a busy agent (R247) or a parameter outside its rules (R243). -/

namespace Sys2Proof.Machine

/-! ### A busy agent -/

/-- Where `exec_tx` leaves `ENC` open: every operation that is neither of DEC nor `ENC` runs through agent TX. -/
theorem exec_endpoint {i : Instr} (hi : decInstr i = false) (henc : ∀ x, i ≠ .enc x) :
    ∃ f, ∀ s, exec i s = runTx f s := by
  cases i <;> simp only [decInstr, Bool.true_eq_false] at hi
  case enc x => exact absurd rfl (henc x)
  all_goals exact ⟨_, fun _ => rfl⟩

/-- Settles O30: an operation runs through its agent, which refuses it while something is in flight. -/
theorem busyAgentRefusesOperations : Obligations.BusyAgentRefusesOperations := by
  refine fun i s => ⟨fun hi hbusy => ?_, fun hi henc hbusy => ?_⟩
  · obtain ⟨f, hf⟩ := exec_dec hi
    exact (hf s).trans (runDec_busy f hbusy)
  · obtain ⟨f, hf⟩ := exec_endpoint hi henc
    exact (hf s).trans (runTx_busy f hbusy)

/-! ### The event RESET -/

theorem step_reset {s : State} {dec tx : Bool} {rest : List Input} (h : s.inputs = .reset dec tx :: rest) :
    step s = .next (applyReset dec tx (s.withInputs rest)) := by
  simp [step, h, runInput]

theorem resetDec_eq (d : Dec) : resetDec d =
    { State.reset.dec with timeWidth := d.timeWidth, past := d.past ++ [⟨d.emitted, d.outcomes⟩] } := rfl

theorem resetTx_eq (x : Tx) : resetTx x =
    { State.reset.tx with past := x.past ++ [⟨x.sink, x.outcomes⟩], answers := x.answers, draws := x.draws } := rfl

/-- Settles O42: each agent by whether it is named. -/
theorem resetEventRecreatesAgents : Obligations.ResetEventRecreatesAgents := by
  intro dec tx rest s hs
  refine ⟨_, step_reset hs, rfl, rfl, rfl, fun hdec => ?_, fun hdec => ?_, fun htx => ?_, fun htx => ?_⟩
  · simp [applyReset, hdec]
  · simp [applyReset, hdec, resetDec_eq]
  · simp [applyReset, htx]
  · simp [applyReset, htx, resetTx_eq]

/-! ### Reset in the port form -/

theorem paramsOpen_resetDec (d : Dec) : paramsOpen (resetDec d) = true := rfl

theorem clockDec_reset {p : Pins} (hrst : p.decRst = true) (d : Dec) : clockDec p d = driveParams p (resetDec d) := by
  simp [clockDec, hrst]

/-- Values that the registers may not hold are not taken. -/
theorem driveParams_illegal {p : Pins} {q : Params} {d : Dec} (hq : p.params = some q)
    (h : ¬ (1 ≤ q.group ∧ q.group ≤ 255 ∧ timesWithin d.timeWidth q)) : driveParams p d = d := by
  rcases driveParams_cases p d with e | ⟨q', hq', -, hwf, hfits, -⟩
  · exact e
  · obtain rfl : q = q' := Option.some.inj (hq.symm.trans hq')
    obtain ⟨hlow, hhigh⟩ := Params.wf_iff.1 hwf
    exact absurd ⟨hlow, hhigh, paramsFit_iff_timesWithin.1 hfits⟩ h

/-- A resetting cycle takes the byte that a sink which is ready and does not fail accepts of the block in flight. -/
theorem acceptByte_sink_flight {x : Tx} {f : TxFlight} (p : Pins) (hflight : x.flight = some f) :
    (acceptByte p x).sink =
      x.sink ++ if p.sinkReady = true ∧ p.sinkErr = false then [commandByte f.word f.sent.val] else [] := by
  rcases hready : p.sinkReady <;> rcases herr : p.sinkErr <;> simp [acceptByte, hflight, hready, herr]

theorem acceptByte_sink_idle {x : Tx} (p : Pins) (hflight : x.flight = none) : (acceptByte p x).sink = x.sink := by
  simp [acceptByte, hflight]

/-- Of the byte taken in a resetting cycle the reset keeps what it put in SINK. -/
theorem clockTx_reset {p : Pins} (hrst : p.txRst = true) (x : Tx) :
    clockTx p x = resetTx { x with sink := (acceptByte p x).sink } := by
  obtain ⟨houtcomes, hpast, hanswers, hdraws⟩ := acceptByte_frame p x
  simp [clockTx, hrst, resetTx, houtcomes, hpast, hanswers, hdraws]

/-- A cycle that resets DEC reports no outcome and emits no record, whatever was in flight. -/
theorem drivePins_resetDec {p : Pins} (hrst : p.decRst = true) (d e : Dec) (driven : Params) (x x' : Tx) :
    let out := drivePins p d { resetDec e with params := driven } x x'
    out.decStatus = none ∧ out.sym = none ∧ out.fb = none ∧ out.decBusy = false := by
  simp [drivePins, hrst, newOutcome, newEmitted, firstSymbol, firstBoundary, resetDec, Dec.reset]

/-- A cycle that resets TX reports no outcome and offers no byte, whatever was in flight. -/
theorem drivePins_resetTx {p : Pins} (hrst : p.txRst = true) (d d' : Dec) (x y : Tx) :
    let out := drivePins p d d' x (resetTx y)
    out.txStatus = none ∧ out.sinkByte = none ∧ out.txBusy = false ∧ out.txOpen = true := by
  simp [drivePins, hrst, newOutcome, resetTx, Tx.reset]

/-- What a resetting cycle leaves of DEC: the reset values but for the parameter values on the pins, if these are legal. -/
theorem clockDec_reset_params {p : Pins} (hrst : p.decRst = true) (d : Dec) :
    ∃ driven, clockDec p d = { resetDec d with params := driven } ∧
      (p.params = none → driven = defaultParams) ∧
      ∀ q, p.params = some q →
        (1 ≤ q.group ∧ q.group ≤ 255 ∧ timesWithin d.timeWidth q → driven = q) ∧
        (¬ (1 ≤ q.group ∧ q.group ≤ 255 ∧ timesWithin d.timeWidth q) → driven = defaultParams) := by
  obtain ⟨driven, hdriven⟩ := driveParams_frame p (resetDec d)
  have hparams {d' : Dec} (h : driveParams p (resetDec d) = d') : driven = d'.params := by rw [← h, hdriven]
  refine ⟨driven, (clockDec_reset hrst d).trans hdriven, fun hnone => ?_,
    fun q hq => ⟨fun ⟨hlow, hhigh, htimes⟩ => ?_, fun hbad => ?_⟩⟩
  · exact hparams (driveParams_undriven hnone _)
  · exact hparams (driveParams_open hq (paramsOpen_resetDec d) (Params.wf_iff.2 ⟨hlow, hhigh⟩)
      (paramsFit_iff_timesWithin.2 htimes))
  · exact hparams (driveParams_illegal hq hbad)

/-- Settles O58: what the edge makes of each agent, and the pins read off the agents after it. -/
theorem portResetAbandonsOperations : Obligations.PortResetAbandonsOperations := by
  intro p s taken
  refine ⟨fun hrst => ?_, fun hrst => ?_⟩
  · obtain ⟨driven, hdec, hnone, hsome⟩ := clockDec_reset_params hrst s.dec
    have hpins := drivePins_resetDec hrst s.dec s.dec driven s.tx (clockTx p s.tx)
    rw [← hdec] at hpins
    exact ⟨driven, hdec, hnone, hsome, hpins⟩
  · have htaken : (acceptByte p s.tx).sink = s.tx.sink ++ taken := by
      rcases hflight : s.tx.flight with _ | f
      · simp [acceptByte_sink_idle p hflight, taken, hflight]
      · simp [acceptByte_sink_flight p hflight, taken, hflight, commandByte]
    have htx : clockTx p s.tx = resetTx { s.tx with sink := s.tx.sink ++ taken } := by
      rw [clockTx_reset hrst, htaken]
    have hpins := drivePins_resetTx hrst s.dec (clockDec p s.dec) s.tx { s.tx with sink := s.tx.sink ++ taken }
    rw [← htx] at hpins
    exact ⟨htx, hpins⟩

/-! ### Where a step gives no next state -/

/-- The answers that a step in the state `s` may give: a next state, or one of the four refusals where its cause is met. -/
inductive NamedAnswer (s : State) : Host.Outcome State Fault Refusal → Prop
  | next (s' : State) : NamedAnswer s (.next s')
  | busy {p : Presented} {rest : List Input} (hs : s.inputs = .op p :: rest)
      (hbusy : s.dec.flight ≠ [] ∨ s.tx.flight ≠ none) : NamedAnswer s (.refused .agentBusy)
  | writeLocked {g : ParamReg} {v : Nat} {rest : List Input} (hs : s.inputs = .setParam g v :: rest)
      (hlocked : s.dec.mode = .done ∨ 0 < s.dec.t) : NamedAnswer s (.refused .paramsLocked)
  | pinsLocked {p : Pins} {q : Params} {rest : List Input} (hs : s.inputs = .clock p :: rest) (hrst : p.decRst = false)
      (hq : p.params = some q) (hother : q ≠ s.dec.params) (hlocked : s.dec.mode = .done ∨ 0 < s.dec.t) :
      NamedAnswer s (.refused .paramsLocked)
  | writeIllegal {v : Nat} {rest : List Input} (hs : s.inputs = .setParam .group v :: rest) (hgroup : v = 0 ∨ 255 < v) :
      NamedAnswer s (.refused .groupIllegal)
  | pinsIllegal {p : Pins} {q : Params} {rest : List Input} (hs : s.inputs = .clock p :: rest) (hq : p.params = some q)
      (hgroup : q.group = 0 ∨ 255 < q.group) : NamedAnswer s (.refused .groupIllegal)
  | writeTooWide {g : ParamReg} {v w : Nat} {rest : List Input} (hs : s.inputs = .setParam g v :: rest) (hg : g ≠ .group)
      (hw : s.dec.timeWidth = some w) (hwide : 2 ^ w ≤ v) : NamedAnswer s (.refused .paramTooWide)
  | pinsTooWide {p : Pins} {q : Params} {rest : List Input} (hs : s.inputs = .clock p :: rest) (hq : p.params = some q)
      (hwide : ¬ timesWithin s.dec.timeWidth q) : NamedAnswer s (.refused .paramTooWide)

/-- A presentation runs an operation of the table, or is a refused word for `SEND`, or selects nothing. -/
theorem present_total (p : Presented) (s : State) :
    (∃ s', present p s = .next s') ∨
      (present p s = .refused .agentBusy ∧ (s.dec.flight ≠ [] ∨ s.tx.flight ≠ none)) := by
  have hexec (i : Instr) : (∃ s', exec i s = .next s') ∨
      (exec i s = .refused .agentBusy ∧ (s.dec.flight ≠ [] ∨ s.tx.flight ≠ none)) :=
    (exec_total i s).imp_right fun ⟨h, hbusy⟩ => ⟨h, hbusy.imp And.right And.right⟩
  unfold present
  split
  next i _ => exact hexec i
  next =>
    cases p with
    | dec op bit byte => exact .inl ⟨_, rfl⟩
    | tx op cmd => exact .inl ⟨_, rfl⟩
    | enc e => exact .inl ⟨_, rfl⟩
    | wire w => exact hexec (.send w)

theorem namedAnswer_op {s : State} {p : Presented} {rest : List Input} (hs : s.inputs = .op p :: rest) :
    NamedAnswer s (step s) := by
  rw [step_op hs]
  rcases present_total p (s.withInputs rest) with ⟨s', h⟩ | ⟨h, hbusy⟩
  · exact h ▸ .next s'
  · exact h ▸ .busy hs hbusy

theorem paramLegal_eq_false_iff {r : ParamReg} {v : Nat} :
    paramLegal r v = false ↔ r = .group ∧ (v = 0 ∨ 255 < v) := by
  rw [← Bool.not_eq_true, paramLegal_iff, Classical.not_imp]
  exact and_congr_right fun _ => by omega

theorem paramFits_eq_false_iff {timeWidth : Option Nat} {r : ParamReg} {v : Nat} :
    paramFits timeWidth r v = false ↔ r ≠ .group ∧ ∃ w, timeWidth = some w ∧ 2 ^ w ≤ v := by
  rw [← Bool.not_eq_true, paramFits_iff]
  push Not
  rfl

/-- A parameter write meets its three checks or stops at the first one it breaks. -/
theorem namedAnswer_setParam {s : State} {r : ParamReg} {v : Nat} {rest : List Input}
    (hs : s.inputs = .setParam r v :: rest) : NamedAnswer s (step s) := by
  rw [step_setParam hs]
  rcases hopen : paramsOpen (s.withInputs rest).dec
  · rw [writeParam_locked r v hopen]
    exact .writeLocked hs (paramsOpen_eq_false_iff.1 hopen)
  rcases hlegal : paramLegal r v
  · rw [writeParam_illegal hopen hlegal]
    obtain ⟨rfl, hgroup⟩ := paramLegal_eq_false_iff.1 hlegal
    exact .writeIllegal hs hgroup
  rcases hfits : paramFits (s.withInputs rest).dec.timeWidth r v
  · rw [writeParam_tooWide hopen hlegal hfits]
    obtain ⟨hr, w, hw, hwide⟩ := paramFits_eq_false_iff.1 hfits
    exact .writeTooWide hs hr hw hwide
  · rw [writeParam_accepted hopen hlegal hfits]
    exact .next _

/-- A clock edge stops at its parameter pins only, in a cycle that takes their values and in one that compares them. -/
theorem namedAnswer_clock {s : State} {p : Pins} {rest : List Input} (hs : s.inputs = .clock p :: rest) :
    NamedAnswer s (step s) := by
  rcases hq : p.params with _ | q
  · rw [step_clock hs, runClock_accepted (paramPinsRefusal_undriven hq _)]
    exact .next _
  by_cases htaking : p.decRst = true ∨ paramsOpen s.dec = true
  · obtain ⟨haccepted, hillegal, htooWide⟩ := step_clock_taking hs hq htaking
    by_cases hrange : 1 ≤ q.group ∧ q.group ≤ 255
    · by_cases htimes : timesWithin s.dec.timeWidth q
      · exact haccepted hrange htimes ▸ .next _
      · exact htooWide hrange htimes ▸ .pinsTooWide hs hq htimes
    · have hgroup : q.group = 0 ∨ 255 < q.group := by omega
      exact hillegal hgroup ▸ .pinsIllegal hs hq hgroup
  · obtain ⟨hrst, hlocked⟩ : p.decRst = false ∧ paramsOpen s.dec = false := by simpa using htaking
    obtain ⟨haccepted, hrefused⟩ := step_clock_locked hs hq hrst hlocked
    by_cases hsame : q = s.dec.params
    · exact haccepted hsame ▸ .next _
    · exact hrefused hsame ▸ .pinsLocked hs hrst hq hsame (paramsOpen_eq_false_iff.1 hlocked)

/-- Every step, by the input that it takes. -/
theorem namedAnswer_step (s : State) : NamedAnswer s (step s) := by
  rcases hs : s.inputs with _ | ⟨i, rest⟩
  · have hstep : step s = .next s := by simp [step, hs]
    exact hstep ▸ .next s
  · cases i with
    | op p => exact namedAnswer_op hs
    | reset dec tx => exact step_reset hs ▸ .next _
    | setParam r v => exact namedAnswer_setParam hs
    | clock p => exact namedAnswer_clock hs

/-- Settles O59: a step answers as named, and no named answer is a fault. -/
theorem stepStopsOnlyAsNamed : Obligations.StepStopsOnlyAsNamed := by
  refine ⟨fun _ e => (nomatch e), fun s r h => ?_⟩
  have hnamed : NamedAnswer s (.refused r) := h ▸ namedAnswer_step s
  cases hnamed with
  | busy hs hbusy => exact .inl ⟨rfl, ⟨_, _, hs⟩, hbusy⟩
  | writeLocked hs hlocked => exact .inr (.inl ⟨rfl, hlocked, .inl ⟨_, _, _, hs⟩⟩)
  | pinsLocked hs hrst hq hother hlocked =>
    exact .inr (.inl ⟨rfl, hlocked, .inr ⟨_, _, _, hs, hrst, hq, hother⟩⟩)
  | writeIllegal hs hgroup => exact .inr (.inr (.inl ⟨rfl, .inl ⟨_, _, hs, hgroup⟩⟩))
  | pinsIllegal hs hq hgroup => exact .inr (.inr (.inl ⟨rfl, .inr ⟨_, _, _, hs, hq, hgroup⟩⟩))
  | writeTooWide hs hg hw hwide => exact .inr (.inr (.inr ⟨rfl, .inl ⟨_, _, _, _, hs, hg, hw, hwide⟩⟩))
  | pinsTooWide hs hq hwide => exact .inr (.inr (.inr ⟨rfl, .inr ⟨_, _, _, hs, hq, hwide⟩⟩))

end Sys2Proof.Machine
end
